-- ==== Sys2Proof/Word.lean ====
section
/-! DEFINITION. The two word types of the block and the one widening between them (spec R7, R9). -/

namespace Sys2Proof

/-- `u8` of R9: one byte of the stream, of a packet, of a cell of `BUF`. -/
abbrev Byte := BitVec 8

/-- `u9` of R9: the width of `FILLED` and of `EXPECTED` (R7, R22, R25). -/
abbrev U9 := BitVec 9

/-- `zext_9` of R9: a `u8` widened to a `u9` of the same value. -/
abbrev zext9 (v : Byte) : U9 := v.setWidth 9

end Sys2Proof
end

