-- ==== Sys2Proof/Config.lean ====
section
/-! DEFINITION. The constants of the block and the parameters of an instance (spec R5 to R8, R17).
The request template is open, and so is what `BUF` holds after RESET:
their values are free constants without a body. -/

namespace Sys2Proof

/-- R6: how many bytes of a frame must be in the buffer before its declared length is used. -/
abbrev Config.hdr : Nat := 4

/-- R47, R81: the cell every byte of an oversized frame's drain is written to. -/
abbrev Config.overflowCell : Nat := 4

/-- R60, R64: a packet holds this many bytes beside its payload (type, length, checksum). -/
abbrev Config.overhead : Nat := 3

/-- R7: the longest payload a length byte can declare. -/
abbrev Config.maxPayload : Nat := 255

/-- R5: the smallest capacity the spec admits. -/
abbrev Config.minCap : Nat := 5

/-- R5: the capacity of the instance of record. -/
abbrev Config.capOfRecord : Nat := 258

/-- R8: `REQ_TYPE`, open (DESIGN CHOICE of the form, log entry 4; safe: a free value). -/
opaque Config.reqType : Byte

/-- R8: `REQ_LEN`, open (DESIGN CHOICE of the form, log entry 4; safe: a free value). -/
opaque Config.reqLen : Byte

/-- Free bytes from which `REQ_LEAD` is cut (log entry 4; safe: a free value). -/
opaque Config.leadSupply : List Byte

/-- R8: `REQ_LEAD`, open: any list of at most `REQ_LEN` bytes (R137). -/
def Config.reqLead : List Byte := Config.leadSupply.take Config.reqLen.toNat

/-- R32, U3: what cell `i` of `BUF` holds after the `n`-th RESET, unspecified (log entry 1): a free
value, of which nothing is known but that it is a byte. -/
opaque Config.resetCell : (n i : Nat) → Byte

/-- The parameters an instance is built with (R8, R17). No operation changes them (R26). -/
structure Params where
  cap     : Nat
  reqType : Byte
  reqLen  : Byte
  reqLead : List Byte
deriving DecidableEq, Repr

/-- R5 and R137: what makes parameters those of an instance of this hardware. -/
abbrev Params.ok (p : Params) : Prop :=
  Config.minCap ≤ p.cap ∧ p.reqLead.length ≤ p.reqLen.toNat

/-- R5, R8: the instance of record, with the template left open. -/
def Config.instanceOfRecord : Params where
  cap     := Config.capOfRecord
  reqType := Config.reqType
  reqLen  := Config.reqLen
  reqLead := Config.reqLead

end Sys2Proof
end

