-- ==== Sys2Proof/Syntax.lean ====
section
/-! DEFINITION. The rows of spec/opcode_table.json as one inductive, the transport's answers a POLL
carries, and the raw form in which an operation is invoked at its port (spec R67, R68, R93). -/

namespace Sys2Proof

/-- What the transport answers during one POLL (R93). `avail` is the answer of `available()`: an
error (`none`) or a count. `stream` is what it has to hand over, in order. `limits` bounds the
successive reads: the j-th read answers at most `limits[j]` bytes, and a read past the end of
`limits` is bounded by its request and by `stream` only. So every answer obeys `k ≤ max` (U4), and
every sequence of answers that obeys it can be written (log entry 6). -/
structure Transport where
  avail  : Option Nat
  stream : List Byte
  limits : List Nat
deriving DecidableEq, Repr

/-- R67: the seven operations, and the packet format row `PKT` of R60 and R61. -/
inductive Instr where
  /-- `RESET` (R160) -/
  | reset
  /-- `RX_BYTE(b)` (R83) -/
  | rxByte (b : Byte)
  /-- `POLL` with the transport's answers (R94) -/
  | poll (t : Transport)
  /-- `CHECKSUM(s, count)` (R120) -/
  | checksum (bytes : List Byte) (count : Nat)
  /-- `VERIFY(p)` (R121) -/
  | verify (p : List Byte)
  /-- `SERIALIZE(T, P)` (R130) -/
  | serialize (ty : Byte) (payload : List Byte)
  /-- `BUILD_REQUEST()` (R131) -/
  | buildRequest
  /-- A packet `TYPE LEN PAYLOAD CSUM` of R61 on the stream; `LEN` is the payload's length. -/
  | pkt (ty : Byte) (payload : List Byte) (csum : Byte)
deriving DecidableEq, Repr

/-- The ports that select the operations (R68, D2). -/
inductive Port where
  | pRst | pRx | pPoll | pCsum | pVerify | pSer | pBuild
deriving DecidableEq, Repr

/-- One invocation as the environment makes it: the constructor is the port (R68), its arguments
what that port carries. `P_RX` carries bytes of the stream, `P_SER` the type byte followed by the
payload. Nothing here is checked yet: that is the decoder's work. -/
inductive Request where
  | rst
  | rx (data : List Byte)
  | poll (t : Transport)
  | csum (bytes : List Byte) (count : Nat)
  | verify (p : List Byte)
  | ser (data : List Byte)
  | build
deriving DecidableEq, Repr

end Sys2Proof
end

