-- ==== Sys2Proof/WellFormed.lean ====
section
/-! DEFINITION. The contract on an operation's arguments: what the spec's argument types bound
(spec R120, R130, R61; 93_implementation_defined.md U10, U14). -/

namespace Sys2Proof

/-- An instruction whose arguments lie inside the contract. `CHECKSUM` counts no further than its
bytes reach (R120), and a payload fits the length byte (R130, R61). -/
def WellFormed : Instr → Bool
  | .reset => true
  | .rxByte _ => true
  | .poll _ => true
  | .checksum bytes count => decide (count ≤ bytes.length)
  | .verify _ => true
  | .serialize _ payload => decide (payload.length ≤ Config.maxPayload)
  | .buildRequest => true
  | .pkt _ payload _ => decide (payload.length ≤ Config.maxPayload)

end Sys2Proof
end

