-- ==== Sys2Proof/Decode.lean ====
section
/-! DEFINITION. The decoder, total on every invocation and rejecting by name; the encoder written
from the same rules; and the reading of a word of bits as a packet (spec R61, R68, R73). -/

namespace Sys2Proof

/-- Why an invocation is no operation of the block. -/
inductive DecodeError where
  /-- bytes at `P_RX` that are neither one byte nor one whole packet (R61, R73); safe -/
  | notAPacket
  /-- `CHECKSUM` with `count > len(s)` (U10: refuse); safe -/
  | countBeyondData
  /-- `P_SER` invoked without a type byte (R130); safe -/
  | noTypeByte
  /-- `SERIALIZE` with more than 255 payload bytes (U14: refuse); safe -/
  | payloadTooLong
deriving DecidableEq, Repr

/-- R60, R61, R73: `TYPE`, `LEN`, then exactly `LEN` payload bytes, then `CSUM`. -/
def decodePkt : List Byte → Option (Byte × List Byte × Byte)
  | ty :: len :: body =>
    if body.length = len.toNat + 1 then
      some (ty, body.take len.toNat, (body.drop len.toNat).headD 0)
    else none
  | _ => none

/-- R68: the operation an invocation selects. -/
def decode : Request → Except DecodeError Instr
  | .rst => .ok .reset
  | .rx [b] => .ok (.rxByte b)
  | .rx data =>
    match decodePkt data with
    | some (ty, payload, c) => .ok (.pkt ty payload c)
    | none => .error .notAPacket
  | .poll t => .ok (.poll t)
  | .csum bytes count =>
    if count ≤ bytes.length then .ok (.checksum bytes count) else .error .countBeyondData
  | .verify p => .ok (.verify p)
  | .ser [] => .error .noTypeByte
  | .ser (ty :: payload) =>
    if payload.length ≤ Config.maxPayload then .ok (.serialize ty payload)
    else .error .payloadTooLong
  | .build => .ok .buildRequest

/-- R60, R61: the bytes of a packet, offset 0 first (R40). -/
def encodePkt (ty : Byte) (payload : List Byte) (c : Byte) : List Byte :=
  ty :: BitVec.ofNat 8 payload.length :: (payload ++ [c])

/-- The invocation that selects an operation (R68). -/
def encode : Instr → Request
  | .reset => .rst
  | .rxByte b => .rx [b]
  | .poll t => .poll t
  | .checksum bytes count => .csum bytes count
  | .verify p => .verify p
  | .serialize ty payload => .ser (ty :: payload)
  | .buildRequest => .build
  | .pkt ty payload c => .rx (encodePkt ty payload c)

/-- The port an invocation is made at. -/
def Request.port : Request → Port
  | .rst => .pRst
  | .rx _ => .pRx
  | .poll _ => .pPoll
  | .csum _ _ => .pCsum
  | .verify _ => .pVerify
  | .ser _ => .pSer
  | .build => .pBuild

/-- The "select" key of each row of spec/opcode_table.json (R68). A packet arrives at `P_RX`, the
port of the stream's bytes (log entry 5). -/
def Instr.port : Instr → Port
  | .reset => .pRst
  | .rxByte _ => .pRx
  | .poll _ => .pPoll
  | .checksum _ _ => .pCsum
  | .verify _ => .pVerify
  | .serialize _ _ => .pSer
  | .buildRequest => .pBuild
  | .pkt _ _ _ => .pRx

/-- R61: byte `i` of a packet holds packet bits `8i + 7` down to `8i`. -/
def wordByte (w i : Nat) : Byte := BitVec.ofNat 8 (w >>> (8 * i))

/-- The `n` bytes of `w` from byte `i` on. -/
def wordBytes (w : Nat) : (i n : Nat) → List Byte
  | _, 0 => []
  | i, n + 1 => wordByte w i :: wordBytes w (i + 1) n

/-- The bytes at `P_RX` that a word of `nbits` bits stands for. A word of at most 8 bits is the one
byte `b` of `RX_BYTE`; a longer one is a packet, of the length its second byte declares, the bits
above `nbits` zero (log entry 5). -/
def tableBytes (nbits w : Nat) : List Byte :=
  let w := w % 2 ^ nbits
  if nbits ≤ 8 then [wordByte w 0]
  else wordBytes w 0 ((wordByte w 1).toNat + Config.overhead)

/-- The instruction the decoder reads from a word of the opcode table. No bit pattern selects an
operation (R68), so a word is what arrives at `P_RX`. -/
def decodeTableWord (nbits w : Nat) : Option Instr :=
  match decode (.rx (tableBytes nbits w)) with
  | .ok i => some i
  | .error _ => none

end Sys2Proof
end

