-- ==== Sys2Proof/Machine/State.lean ====
section
/-! DEFINITION. The state of the machine as plain data, its outputs, the reasons a step can stop,
and the state after reset (spec R20 to R33, R161). -/

namespace Sys2Proof.Machine

/-- `BUF` (R20): its cells with the byte each holds, by rising index. -/
abbrev Memory := List Host.Cell

/-- The framer's two pieces of stored state, `BUF` (R20) and `FILLED` (R22). -/
structure Framer where
  buf    : Memory
  filled : U9
deriving DecidableEq, Repr

/-- R24: the three values of the view `PHASE`. -/
inductive Phase where
  | header | payload | overflow
deriving DecidableEq, Repr

/-- R12, R140: why a frame is discarded. -/
inductive Reason where
  | checksumMismatch | oversizedPacket | runtPacket
deriving DecidableEq, Repr

/-- R12, R140: why a poll is aborted. -/
inductive Abort where
  | transportUnavailable
deriving DecidableEq, Repr

/-- R12: the outcome of a step of the framer, or of a poll that could not start. -/
inductive Event where
  | pending
  | delivered (bytes : List Byte)
  | discarded (r : Reason)
  | aborted (a : Abort)
deriving DecidableEq, Repr

/-- What `P_STAT` shows for one step: the outcome, its code `EV` and the level `OVF` (R27 to R29). -/
structure Stat where
  event : Event
  ev    : BitVec 3
  ovf   : Bool
deriving DecidableEq, Repr

/-- One `read(req)` a POLL made and the count `k` it answered (R93, R94). -/
structure ReadCall where
  req : Nat
  k   : Nat
deriving DecidableEq, Repr

/-- What an operation hands back to its invoker (R67, R178). -/
inductive Result where
  /-- RESET, which hands back nothing (R178); the mark is the model's choice (log entry 2) -/
  | done
  /-- RX_BYTE -/
  | event (e : Event)
  /-- POLL: the non-Pending outcomes in stream order (R94), and beside them the reads it made. The spec
  hands back the outcomes alone (R67, R178) and makes a read a call-out (R94, D2); that the sizes of
  the reads stand in the result is the model's choice (log entry 12) -/
  | poll (reads : List ReadCall) (outs : List Event)
  /-- CHECKSUM -/
  | byte (v : Byte)
  /-- VERIFY -/
  | bool (v : Bool)
  /-- SERIALIZE, BUILD_REQUEST -/
  | bytes (p : List Byte)
  /-- PKT: the outcome of every byte of the packet, in order -/
  | events (es : List Event)
deriving DecidableEq, Repr

/-- Why the machine stops. None is reached from a state that satisfies R23 on an instance that
satisfies R5: outside these R80 gives the framer no step. -/
inductive Fault where
  /-- RX_BYTE, POLL, PKT: an access to an index at which `BUF` has no cell (R20, R48); safe -/
  | noSuchCell (i : Nat)
  /-- RX_BYTE, POLL, PKT: `FILLED ≥ EXPECTED` outside the Header phase, against R23 (b); safe -/
  | cursorPastFrame
deriving DecidableEq, Repr

/-- Why the machine gives an invocation no meaning. -/
inductive Refusal where
  /-- an instruction without a meaning, by its mnemonic; raised by no arm -/
  | notModelled (mnemonic : String)
  /-- step: an invocation the decoder rejects; safe -/
  | badRequest (e : DecodeError)
  /-- CHECKSUM: `count > len(s)` (U10); safe -/
  | countBeyondData
  /-- SERIALIZE: more than 255 payload bytes (U14); safe -/
  | payloadTooLong
  /-- PKT: more than 255 payload bytes, which no length byte declares (R61); safe -/
  | notAPacket
  /-- BUILD_REQUEST: a template with `len(REQ_LEAD) > REQ_LEN` (U15, R137); safe -/
  | notAnInstance
deriving DecidableEq, Repr

/-- The machine. `params` are the instance's constants (R5, R8, R26), `framer` its stored state
(R20, R22). The other five fields are the model's own. `resets` counts the RESETs so far, the first
one included, so that each draws its own free values for `BUF` (log entry 1). The last four are there
because a step is a function of the state alone: the environment's invocations still to come (R178),
and what the output ports `P_STAT` and `P_SINK` and the results have shown so far, oldest first (R27,
R31, R177). No meaning reads the last three (log entry 2). -/
structure State where
  params  : Params
  framer  : Framer
  resets  : Nat
  pending : List Request
  stat    : List Stat
  sink    : List (List Byte)
  results : List Result
deriving DecidableEq, Repr

/-- Cells `i` to `i + n - 1`, each with the byte `f` gives for its index. -/
def Memory.fill (f : Nat → Byte) : (i n : Nat) → Memory
  | _, 0 => []
  | i, n + 1 => (i, f i) :: Memory.fill f (i + 1) n

/-- The framer right after the `n`-th RESET (R32, R160, R161): `FILLED = 0`, and every cell of `BUF` a
free value (log entry 1). -/
def Framer.initial (cap n : Nat) : Framer where
  buf    := Memory.fill (Config.resetCell n) 0 cap
  filled := 0#9

/-- The instance of record right after its first RESET (R5, R32, R161, R177), with nothing invoked and
nothing shown. -/
def State.reset : State where
  params  := Config.instanceOfRecord
  framer  := Framer.initial Config.capOfRecord 0
  resets  := 1
  pending := []
  stat    := []
  sink    := []
  results := []

end Sys2Proof.Machine
end

