-- ==== Sys2Proof/Machine/Ops.lean ====
section
/-! DEFINITION. The named operations over `BUF`, `FILLED` and the output ports (spec R11, R46 to R48,
R82, R149, R150). The block's form of taking an exception is `Framer.endFrame` (R149); there is no
return operation (R151). -/

namespace Sys2Proof.Machine

/-- What an index at which `BUF` has no cell reads as: nothing (R20). -/
def Memory.unlisted : Option Byte := none

/-- `BUF[i]` where there is such a cell. -/
def Memory.read : Memory → Nat → Option Byte
  | [], _ => Memory.unlisted
  | (a, v) :: m, i => if a = i then some v else Memory.read m i

/-- `BUF[i] <- v`, keeping the indices rising. -/
def Memory.write : Memory → Nat → Byte → Memory
  | [], i, v => [(i, v)]
  | (a, w) :: m, i, v =>
    if i < a then (i, v) :: (a, w) :: m
    else if i = a then (i, v) :: m
    else (a, w) :: Memory.write m i v

/-- The canonical form: indices strictly rising, no entry equal to what an unlisted cell reads as. -/
abbrev Memory.wf (m : Memory) : Prop :=
  m.Pairwise (fun c d => c.1 < d.1) ∧ ∀ c ∈ m, some c.2 ≠ Memory.unlisted

/-- No cell lies at or above the capacity (R20, R48). -/
abbrev Memory.inside (cap : Nat) (m : Memory) : Prop := ∀ c ∈ m, c.1 < cap

/-- A read of `BUF[i]` on an instance of capacity `cap` (R11, R48). -/
def Memory.load (cap : Nat) (m : Memory) (i : Nat) : Except Fault Byte :=
  if i < cap then
    match Memory.read m i with
    | some v => .ok v
    | none => .error (.noSuchCell i)
  else .error (.noSuchCell i)

/-- A write of `BUF[i]` on an instance of capacity `cap` (R11, R48). -/
def Memory.store (cap : Nat) (m : Memory) (i : Nat) (v : Byte) : Except Fault Memory :=
  if i < cap then .ok (Memory.write m i v) else .error (.noSuchCell i)

/-- `BUF[i, i + n)` (R10, R11). -/
def Memory.loadRange (cap : Nat) (m : Memory) : (i n : Nat) → Except Fault (List Byte)
  | _, 0 => .ok []
  | i, n + 1 =>
    match Memory.load cap m i with
    | .error x => .error x
    | .ok v =>
      match Memory.loadRange cap m (i + 1) n with
      | .error x => .error x
      | .ok vs => .ok (v :: vs)

/-- RESET (R160): `FILLED <- 0`, and every cell of `BUF` unspecified, a free value of this RESET's own
(log entry 1). -/
def State.initialise (s : State) : State :=
  { s with framer := Framer.initial s.params.cap s.resets, resets := s.resets + 1 }

/-- The frame goes on: `FILLED <- n`, outcome Pending (R82). -/
def Framer.goOn (buf : Memory) (n : Nat) : Framer × Event :=
  ({ buf := buf, filled := BitVec.ofNat 9 n }, .pending)

/-- The frame ends with outcome `e`: `FILLED <- 0`, `BUF` as it is, nothing saved, control
transferred nowhere. Every condition of the framer is taken so (R149), and a delivery too (R150). -/
def Framer.endFrame (buf : Memory) (e : Event) : Framer × Event :=
  ({ buf := buf, filled := 0#9 }, e)

/-- The packets an outcome hands to the sink: the delivered one, else none (R91). -/
def Event.packets : Event → List (List Byte)
  | .delivered p => [p]
  | _ => []

/-- Whether the outcome is Pending, the one a POLL does not list (R94). -/
def Event.isPending : Event → Bool
  | .pending => true
  | _ => false

/-- One step's outputs: `P_STAT` shows `st`, and the sink is invoked when it is a delivery (R91). -/
def State.emit (s : State) (f : Framer) (st : Stat) : State :=
  { s with framer := f, stat := s.stat ++ [st], sink := s.sink ++ st.event.packets }

/-- The operation ends and hands `r` back to its invoker (R178). -/
def State.answer (s : State) (r : Result) : State :=
  { s with results := s.results ++ [r] }

/-- The next invocation of the environment and the state in which it runs (R50, R178). -/
def State.fetch (s : State) : Option (Request × State) :=
  match s.pending with
  | [] => none
  | r :: rest => some (r, { s with pending := rest })

/-- `nbits` bits of `w` stand next at `P_RX` (log entry 5). -/
def State.offerWord (s : State) (nbits w : Nat) : State :=
  { s with pending := .rx (tableBytes nbits w) :: s.pending }

end Sys2Proof.Machine
end

