-- ==== Sys2Proof/Machine/Codec.lean ====
section
/-! DEFINITION. The checksum codec: `CHECKSUM` and `VERIFY` (spec R120 to R129). -/

namespace Sys2Proof.Machine

/-- R120, R124: the sum of bytes mod 256, added one by one. -/
def sumBytes : (t : Byte) → List Byte → Byte
  | t, [] => t
  | t, b :: bs => sumBytes (t + b) bs

/-- R120: `CHECKSUM(s, count)`. -/
def checksum (bytes : List Byte) (count : Nat) : Byte :=
  (sumBytes 0#8 (bytes.take count) ^^^ 0xFF#8) + 1#8

/-- R121: `VERIFY(p)`, on `p = [p[0], p[1]] ++ body`, so that `p[L + 2]` is `body[L]`. -/
def verify : List Byte → Bool
  | ty :: len :: body =>
    if body.length + 2 < len.toNat + Config.overhead then false
    else body[len.toNat]? == some (checksum (ty :: len :: body) (len.toNat + 2))
  | _ => false

/-- `CHECKSUM` (R120), refusing a count beyond the bytes (U10). -/
def execChecksum (bytes : List Byte) (count : Nat) (s : State) :
    Host.Outcome State Fault Refusal :=
  if count ≤ bytes.length then .next (s.answer (.byte (checksum bytes count)))
  else .refused .countBeyondData

/-- `VERIFY` (R121). -/
def execVerify (p : List Byte) (s : State) : Host.Outcome State Fault Refusal :=
  .next (s.answer (.bool (verify p)))

end Sys2Proof.Machine
end

