-- ==== Sys2Proof/Machine/Encoder.lean ====
section
/-! DEFINITION. The packet encoder: `SERIALIZE` and `BUILD_REQUEST` (spec R130 to R137). -/

namespace Sys2Proof.Machine

/-- R130: the packet of a type byte and a payload, closed with its checksum. -/
def serialize (ty : Byte) (payload : List Byte) : List Byte :=
  let h := ty :: BitVec.ofNat 8 payload.length :: payload
  h ++ [checksum h (payload.length + 2)]

/-- R131: `REQ_LEAD ++ zeros(REQ_LEN - K)`. -/
def requestPayload (p : Params) : List Byte :=
  p.reqLead ++ List.replicate (p.reqLen.toNat - p.reqLead.length) 0#8

/-- R131: the request packet of an instance. -/
def buildRequest (p : Params) : List Byte := serialize p.reqType (requestPayload p)

/-- `SERIALIZE` (R130), refusing a payload no length byte declares (U14). -/
def execSerialize (ty : Byte) (payload : List Byte) (s : State) :
    Host.Outcome State Fault Refusal :=
  if payload.length ≤ Config.maxPayload then .next (s.answer (.bytes (serialize ty payload)))
  else .refused .payloadTooLong

/-- `BUILD_REQUEST` (R131), refusing what is no template of an instance (R137, U15). -/
def execBuildRequest (s : State) : Host.Outcome State Fault Refusal :=
  if s.params.reqLead.length ≤ s.params.reqLen.toNat then
    .next (s.answer (.bytes (buildRequest s.params)))
  else .refused .notAnInstance

end Sys2Proof.Machine
end

