-- ==== Sys2Proof/Machine/Flags.lean ====
section
/-! DEFINITION. The views computed from the stored state, and the codes and levels of `P_STAT`
(spec R24, R25, R28, R29, R64, R129). -/

namespace Sys2Proof.Machine

/-- `EXPECTED = zext_9(BUF[1]) + 3` from the length byte (R25, R64). -/
def declaredLength (len : Byte) : U9 := zext9 len + BitVec.ofNat 9 Config.overhead

/-- `EXPECTED` of the frame in progress (R25). While `FILLED < 4` the spec defines no such view (R25,
R161); that it is `BUF[1] + 3` there too, from whatever byte the cell holds, is the model's choice (log
entry 13), and no meaning reads it there. -/
def Framer.expected (cap : Nat) (f : Framer) : Except Fault Nat :=
  match Memory.load cap f.buf 1 with
  | .error x => .error x
  | .ok len => .ok (declaredLength len).toNat

/-- `PHASE` (R24). -/
def Framer.phase (cap : Nat) (f : Framer) : Except Fault Phase :=
  if f.filled.toNat < Config.hdr then .ok .header
  else
    match Framer.expected cap f with
    | .error x => .error x
    | .ok e => .ok (if e > cap then .overflow else .payload)

/-- `REMAINING = EXPECTED - FILLED` (R25), at least 1 where `FILLED ≥ 4` and the framer has a
step (R23 (b), R80). While `FILLED < 4` the spec defines no such view (R25, R161); what it answers there
is the model's choice (log entry 13), and no meaning reads it there. -/
def Framer.remaining (cap : Nat) (f : Framer) : Except Fault Nat :=
  match Framer.expected cap f with
  | .error x => .error x
  | .ok e => if f.filled.toNat < e then .ok (e - f.filled.toNat) else .error .cursorPastFrame

/-- `OVF`: 1 exactly when `PHASE` is Overflow (R29). -/
def Framer.ovf (cap : Nat) (f : Framer) : Bool :=
  match Framer.phase cap f with
  | .ok .overflow => true
  | _ => false

/-- `EV` (R28). -/
def Event.ev : Event → BitVec 3
  | .pending => 0
  | .delivered _ => 1
  | .discarded .checksumMismatch => 2
  | .discarded .oversizedPacket => 3
  | .discarded .runtPacket => 4
  | .aborted .transportUnavailable => 5

/-- What `P_STAT` shows of outcome `e` with the framer left at `f` (R27 to R29). -/
def Framer.stat (cap : Nat) (f : Framer) (e : Event) : Stat where
  event := e
  ev    := e.ev
  ovf   := Framer.ovf cap f

end Sys2Proof.Machine
end

