-- ==== Sys2Proof/Machine/Operands.lean ====
section
/-! DEFINITION. The operand forms of the framer: the index a byte is written at, the size of a POLL's
next request, and the transport's answer to it (spec R81, R93 to R95). -/

namespace Sys2Proof.Machine

/-- R81: the cell a byte is written at, by the phase before the step. -/
def Framer.writeIndex (f : Framer) : Phase → Nat
  | .overflow => Config.overflowCell
  | _ => f.filled.toNat

/-- R94, R95: how many bytes a POLL asks for next, `avail` still to come. -/
def Framer.request (cap : Nat) (f : Framer) (avail : Nat) : Except Fault Nat :=
  match Framer.phase cap f with
  | .error x => .error x
  | .ok .header => .ok (min avail (Config.hdr - f.filled.toNat))
  | .ok .payload =>
    match Framer.remaining cap f with
    | .error x => .error x
    | .ok r => .ok (min avail r)
  | .ok .overflow =>
    match Framer.remaining cap f with
    | .error x => .error x
    | .ok r => .ok (min (min avail r) (cap - Config.overflowCell))

/-- R93: how many bytes `read(max)` answers at most. -/
def Transport.grant (t : Transport) (max : Nat) : Nat := min max (t.limits.headD max)

/-- R93: what `read(max)` answers, the next bytes of the stream in order. -/
def Transport.chunk (t : Transport) (max : Nat) : List Byte := t.stream.take (Transport.grant t max)

/-- R45: the transport after `read(max)`: the bytes answered are gone from it. -/
def Transport.after (t : Transport) (max : Nat) : Transport :=
  { t with stream := t.stream.drop (Transport.grant t max), limits := t.limits.tail }

end Sys2Proof.Machine
end

