-- ==== Sys2Proof/Machine/Framer.lean ====
section
/-! DEFINITION. The frame reassembler: `RESET`, `RX_BYTE`, `POLL`, and a packet on the stream
(spec R80 to R97, R160). -/

namespace Sys2Proof.Machine

/-- R80: the phase before a step, for the states a step is defined on (R23 (b)). -/
def Framer.ready (cap : Nat) (f : Framer) : Except Fault Phase :=
  match Framer.phase cap f with
  | .error x => .error x
  | .ok .header => .ok .header
  | .ok ph =>
    match Framer.remaining cap f with
    | .error x => .error x
    | .ok _ => .ok ph

/-- R87, R88: the frame ends with this byte; it is discarded as oversized, or verified and
delivered or discarded. -/
def Framer.complete (cap : Nat) (ph : Phase) (buf : Memory) (e : Nat) :
    Except Fault (Framer × Event) :=
  if ph = .overflow ∨ e > cap then .ok (Framer.endFrame buf (.discarded .oversizedPacket))
  else
    match Memory.loadRange cap buf 0 e with
    | .error x => .error x
    | .ok p =>
      if verify p then .ok (Framer.endFrame buf (.delivered p))
      else .ok (Framer.endFrame buf (.discarded .checksumMismatch))

/-- R83 from the fourth byte on, in the order of R85 and R148: runt, oversized, complete. -/
def Framer.classify (cap : Nat) (ph : Phase) (buf : Memory) (n e : Nat) :
    Except Fault (Framer × Event) :=
  if ph = .header ∧ e < Config.hdr then .ok (Framer.endFrame buf (.discarded .runtPacket))
  else if ph = .header ∧ e > cap then .ok (Framer.goOn buf Config.hdr)
  else if n = e then Framer.complete cap ph buf e
  else .ok (Framer.goOn buf n)

/-- R83: the framer accepts one byte. -/
def Framer.accept (cap : Nat) (f : Framer) (b : Byte) : Except Fault (Framer × Event) :=
  match Framer.ready cap f with
  | .error x => .error x
  | .ok ph =>
    match Memory.store cap f.buf (f.writeIndex ph) b with
    | .error x => .error x
    | .ok buf =>
      if f.filled.toNat + 1 < Config.hdr then .ok (Framer.goOn buf (f.filled.toNat + 1))
      else
        match Memory.load cap buf 1 with
        | .error x => .error x
        | .ok len => Framer.classify cap ph buf (f.filled.toNat + 1) (declaredLength len).toNat

/-- One step of the framer on the machine: its effect, and what it shows (R27, R83, R91). -/
def rxStep (b : Byte) (s : State) : Except Fault (State × Event) :=
  match Framer.accept s.params.cap s.framer b with
  | .error x => .error x
  | .ok (f, e) => .ok (s.emit f (Framer.stat s.params.cap f e), e)

/-- One `RX_BYTE` step per byte, in order, and every outcome (R44, R74). -/
def feed : List Byte → State → Except Fault (State × List Event)
  | [], s => .ok (s, [])
  | b :: bs, s =>
    match rxStep b s with
    | .error x => .error x
    | .ok (s₁, e) =>
      match feed bs s₁ with
      | .error x => .error x
      | .ok (s₂, es) => .ok (s₂, e :: es)

/-- The loop of R94: `avail` bytes still to come, `fuel ≥ avail`. It gives the reads made and the
non-Pending outcomes. Every turn lowers `avail` or ends the loop (R177). -/
def pollLoop : (fuel avail : Nat) → Transport → State →
    Except Fault (State × List ReadCall × List Event)
  | 0, _, _, s => .ok (s, [], [])
  | fuel + 1, avail, t, s =>
    if avail = 0 then .ok (s, [], [])
    else
      match Framer.request s.params.cap s.framer avail with
      | .error x => .error x
      | .ok req =>
        let chunk := Transport.chunk t req
        let call : ReadCall := { req := req, k := chunk.length }
        if chunk.length = 0 then .ok (s, [call], [])
        else
          match feed chunk s with
          | .error x => .error x
          | .ok (s₁, es) =>
            match pollLoop fuel (avail - chunk.length) (Transport.after t req) s₁ with
            | .error x => .error x
            | .ok (s₂, calls, outs) =>
              .ok (s₂, call :: calls, es.filter (fun e => !e.isPending) ++ outs)

/-- `RESET` (R160). -/
def execReset (s : State) : Host.Outcome State Fault Refusal :=
  .next (s.initialise.answer .done)

/-- `RX_BYTE` (R83). -/
def execRxByte (b : Byte) (s : State) : Host.Outcome State Fault Refusal :=
  match rxStep b s with
  | .error x => .fault x
  | .ok (s', e) => .next (s'.answer (.event e))

/-- R97: `available()` reported an error; the poll aborts with nothing changed. -/
def State.abortPoll (s : State) : State :=
  (s.emit s.framer (Framer.stat s.params.cap s.framer (.aborted .transportUnavailable))).answer
    (.poll [] [.aborted .transportUnavailable])

/-- `POLL` (R94). -/
def execPoll (t : Transport) (s : State) : Host.Outcome State Fault Refusal :=
  match t.avail with
  | none => .next s.abortPoll
  | some avail =>
    match pollLoop avail avail t s with
    | .error x => .fault x
    | .ok (s', calls, outs) => .next (s'.answer (.poll calls outs))

/-- A packet on the stream: its bytes are accepted one by one, offset 0 first (R40, R60, R74; log
entry 5). A payload that no length byte declares is no packet (R61). -/
def execPkt (ty : Byte) (payload : List Byte) (c : Byte) (s : State) :
    Host.Outcome State Fault Refusal :=
  if payload.length ≤ Config.maxPayload then
    match feed (encodePkt ty payload c) s with
    | .error x => .fault x
    | .ok (s', es) => .next (s'.answer (.events es))
  else .refused .notAPacket

end Sys2Proof.Machine
end

