-- ==== Sys2Proof/Machine/Dispatch.lean ====
section
/-! DEFINITION. One arm per row of spec/opcode_table.json. -/

namespace Sys2Proof.Machine

/-- The meaning of every instruction. -/
def exec (i : Instr) (s : State) : Host.Outcome State Fault Refusal :=
  match i with
  | .reset => Sys2Proof.Machine.execReset s
  | .rxByte b => Sys2Proof.Machine.execRxByte b s
  | .poll t => Sys2Proof.Machine.execPoll t s
  | .checksum bytes count => Sys2Proof.Machine.execChecksum bytes count s
  | .verify p => Sys2Proof.Machine.execVerify p s
  | .serialize ty payload => Sys2Proof.Machine.execSerialize ty payload s
  | .buildRequest => Sys2Proof.Machine.execBuildRequest s
  | .pkt ty payload csum => Sys2Proof.Machine.execPkt ty payload csum s

end Sys2Proof.Machine
end

