-- ==== Sys2Proof/Machine/Step.lean ====
section
/-! DEFINITION. One step of the machine: the next invocation of the environment is decoded and runs
to its end (spec R15, R44, R50, R177, R178). -/

namespace Sys2Proof.Machine

/-- One step. With nothing invoked the block does nothing (R33, R146; log entry 3). -/
def step (s : State) : Host.Outcome State Fault Refusal :=
  match s.fetch with
  | none => .next s
  | some (r, s') =>
    match decode r with
    | .error e => .refused (.badRequest e)
    | .ok i => exec i s'

/-- `s` with the instruction that `decodeTableWord nbits w` reads invoked next. -/
def State.withFetchWord (s : State) (nbits w : Nat) : State := s.offerWord nbits w

end Sys2Proof.Machine
end

