-- ==== Sys2Proof/Safety.lean ====
section
/-! DEFINITION. What a sound state of the machine is, and what a run is (spec R21, R23, R48, R137,
R177). -/

namespace Sys2Proof.Machine

/-- The cells a later rule may read before they are written again: those of the frame in progress,
and in the Overflow phase its header alone (R21, R47). -/
def Framer.live (cap : Nat) (f : Framer) : Nat :=
  if Framer.ovf cap f then Config.hdr else f.filled.toNat

/-- The states of the framer that R23 admits, on an instance of capacity `cap`. -/
structure Framer.Inv (cap : Nat) (f : Framer) : Prop where
  /-- `BUF` is in canonical form -/
  canonical : Memory.wf f.buf
  /-- `BUF` has no cell at or above `CAP` (R20, R48) -/
  inside : Memory.inside cap f.buf
  /-- R23 (b) -/
  tracked : Config.hdr ≤ f.filled.toNat →
    ∃ len, Memory.read f.buf 1 = some len ∧ 2 ≤ len.toNat ∧
      f.filled.toNat < (declaredLength len).toNat
  /-- `BUF` has every cell below `CAP`, and each holds a byte (R20) -/
  whole : ∀ i, i < cap → ∃ v, Memory.read f.buf i = some v

/-- The sound states of the machine: an instance of this hardware (R5, R137) with its framer in a
state that R23 admits. -/
structure State.Inv (s : State) : Prop where
  instanceOk : s.params.ok
  framerOk : Framer.Inv s.params.cap s.framer

/-- R177: a run, a finite sequence of operations one after the other. -/
def execAll : List Instr → State → Host.Outcome State Fault Refusal
  | [], s => .next s
  | i :: is, s =>
    match exec i s with
    | .next t => execAll is t
    | .fault x => .fault x
    | .refused x => .refused x

/-- R140: a step that neither stops the machine nor leaves it unsound. -/
def Sound (o : Host.Outcome State Fault Refusal) : Prop := ∃ t, o = .next t ∧ t.Inv

/-- R21: two framers that agree on `FILLED` and on every live cell. -/
structure Framer.Agree (cap : Nat) (f g : Framer) : Prop where
  filled : f.filled = g.filled
  cells : ∀ i, i < Framer.live cap f → Memory.read f.buf i = Memory.read g.buf i

/-- `BUF[i]` of a state, where there is such a cell. -/
abbrev State.cell (s : State) (i : Nat) : Option Byte := Memory.read s.framer.buf i

/-- `FILLED` of a state, as a number. -/
abbrev State.count (s : State) : Nat := s.framer.filled.toNat

/-- `t` is what RX_BYTE(b) makes of `s` when it stores the byte at index `w`, leaves the count `n` and
yields the outcome `e`: every other cell, the instance and the invocations are as before, `P_STAT`
shows `e` with its code and the new level, and the sink gets what `e` delivers. -/
structure RxGives (s : State) (b : Byte) (w n : Nat) (e : Event) (t : State) : Prop where
  count : t.count = n
  cells : ∀ i, t.cell i = if i = w then some b else s.cell i
  params : t.params = s.params
  resets : t.resets = s.resets
  pending : t.pending = s.pending
  stat : t.stat = s.stat ++ [{ event := e, ev := e.ev, ovf := Framer.ovf t.params.cap t.framer }]
  sink : t.sink = s.sink ++ e.packets
  results : t.results = s.results ++ [.event e]

/-- `BUF[0, e)` of a state is `p`. -/
def State.holds (s : State) (p : List Byte) : Prop := ∀ k, k < p.length → s.cell k = p[k]?

/-- The outcome of a complete frame that fits: delivered when it verifies, else discarded (R87). -/
def verdict (p : List Byte) : Event :=
  if verify p then .delivered p else .discarded .checksumMismatch

/-- How many bytes a POLL took from the transport: the counts its reads answered (R45, R93). -/
def Result.handed : Result → Nat
  | .poll calls _ => (calls.map ReadCall.k).sum
  | _ => 0

/-- The outcomes a POLL lists (R94). -/
def Result.outs : Result → List Event
  | .poll _ outs => outs
  | _ => []

/-- The bytes the transports handed over during POLLs that answered `rs`, in stream order (R96). -/
def handedOver : List Transport → List Result → List Byte
  | t :: ts, r :: rs => t.stream.take r.handed ++ handedOver ts rs
  | _, _ => []

/-- What a state shows beyond an earlier one. -/
def State.newResults (s t : State) : List Result := t.results.drop s.results.length

/-- The outcomes `P_STAT` shows beyond an earlier state. -/
def State.newEvents (s t : State) : List Event := (t.stat.drop s.stat.length).map Stat.event

/-- Outcomes other than Pending, in order. -/
def nonPending (es : List Event) : List Event := es.filter (fun e => !e.isPending)

end Sys2Proof.Machine
end

