-- ==== Sys2Proof/Certificates/Slice0/Obligations.lean ====
section
/-! DEFINITION. The statements for the provers, by the numbered rules of spec/. -/

open Sys2Proof Sys2Proof.Machine

/-! ## The machine, its step and its decoder -/

/-- R32, R5, R20: after reset `FILLED = 0`, the phase is Header, `OVF` is 0, `CAP` is that of the
instance of record, and `BUF` has the cells 0 to 257, each holding a byte; which one is open, and the
statement holds of every one (log entry 1). The empty invocations and outputs are the model's choice
(log entry 2). -/
def Obligations.ResetStateIsTheEmptyInstanceOfRecord : Prop :=
  State.reset.count = 0 ∧
  Framer.phase State.reset.params.cap State.reset.framer = .ok .header ∧
  Framer.ovf State.reset.params.cap State.reset.framer = false ∧
  State.reset.params.cap = 258 ∧
  (∀ i, i < 258 → ∃ v, State.reset.cell i = some v) ∧ (∀ i, 258 ≤ i → State.reset.cell i = none) ∧
  State.reset.pending = [] ∧ State.reset.stat = [] ∧ State.reset.sink = [] ∧
  State.reset.results = []

/-- R23, R137: the state after reset is sound, whatever the open template is. -/
def Obligations.ResetStateIsSound : Prop := State.reset.Inv

/-- R23, R140: from every sound state, a step that goes on leaves a sound state. -/
def Obligations.StepKeepsSoundness : Prop :=
  ∀ s t : State, s.Inv → step s = .next t → t.Inv

/-- R80, R140, R177: in every sound state every operation inside the contract runs to its end and
leaves a sound state: no condition stops the machine. -/
def Obligations.EveryOperationCompletes : Prop :=
  ∀ (i : Instr) (s : State), s.Inv → WellFormed i = true → Sound (exec i s)

/-- R177: every run of operations inside the contract runs to its end from every sound state. -/
def Obligations.EveryRunCompletes : Prop :=
  ∀ (is : List Instr) (s : State), s.Inv → (∀ i ∈ is, WellFormed i = true) → Sound (execAll is s)

/-- R15, R44, R50: the step runs the operation that the next invocation selects, in the state with that
invocation taken away and nothing else changed. -/
def Obligations.StepRunsTheInvokedOperation : Prop :=
  ∀ (s : State) (r : Request) (rest : List Request) (i : Instr),
    s.pending = r :: rest → decode r = .ok i →
    step s = exec i { s with pending := rest }

/-- R33, R146: with nothing invoked nothing changes (log entry 3, the model's reading). -/
def Obligations.IdleStepChangesNothing : Prop :=
  ∀ s : State, s.pending = [] → step s = .next s

/-- An invocation that is no operation is refused under the decoder's name for it (U10, U14; the names
are the model's choice, log entry 8). -/
def Obligations.RejectedInvocationIsRefused : Prop :=
  ∀ (s : State) (r : Request) (rest : List Request) (x : DecodeError),
    s.pending = r :: rest → decode r = .error x → step s = .refused (.badRequest x)

/-- A word offered at `P_RX` is run next: the step after it is the operation the decoder reads from
the word, in the state before the offer (log entry 5). -/
def Obligations.OfferedWordRunsNext : Prop :=
  ∀ (s : State) (nbits w : Nat) (i : Instr), decodeTableWord nbits w = some i →
    step (s.withFetchWord nbits w) = exec i s

/-- R60, R61, R68: decoding the invocation an instruction encodes to gives the instruction back, every
operand at every value the contract admits. -/
def Obligations.DecodeOfEncodeIsTheInstruction : Prop :=
  ∀ i : Instr, WellFormed i = true → decode (encode i) = .ok i

/-- R61, R68, R73: an invocation that decodes has one meaning: the instruction lies inside the
contract and encodes to that very invocation. -/
def Obligations.DecodedInvocationIsTheEncodedOne : Prop :=
  ∀ (r : Request) (i : Instr), decode r = .ok i → WellFormed i = true ∧ encode i = r

/-- R60, R61, R67, R68: one invocation of every row, written out, and the row it selects; and the
packet `10 01 AA 45` as one word of packet bits, byte 0 lowest. That four bytes at `P_RX`, and a word,
are the row PKT is the model's choice (log entry 5): the spec gives `P_RX` one byte and PKT no port. -/
def Obligations.SpecWordsDecodeToTheirRows : Prop :=
  decode .rst = .ok .reset ∧
  decode (.rx [0x45#8]) = .ok (.rxByte 0x45#8) ∧
  decode (.poll ⟨none, [], []⟩) = .ok (.poll ⟨none, [], []⟩) ∧
  decode (.csum [0x71#8, 0x14#8] 2) = .ok (.checksum [0x71#8, 0x14#8] 2) ∧
  decode (.verify [0x71#8, 0x00#8, 0x8F#8]) = .ok (.verify [0x71#8, 0x00#8, 0x8F#8]) ∧
  decode (.ser [0x10#8, 0xAA#8]) = .ok (.serialize 0x10#8 [0xAA#8]) ∧
  decode .build = .ok .buildRequest ∧
  decode (.rx [0x10#8, 0x01#8, 0xAA#8, 0x45#8]) = .ok (.pkt 0x10#8 [0xAA#8] 0x45#8) ∧
  decodeTableWord 32 0b01000101101010100000000100010000 = some (.pkt 0x10#8 [0xAA#8] 0x45#8)

/-- R61: the fields of a packet stand in its bits as the table gives them: `TYPE` in bits 7:0, `LEN`
in 15:8, payload byte `i` in the eight bits from `8(2+i)`, `CSUM` in the eight bits from `8(2+L)`.
That a word stands for a packet at `P_RX` is the model's choice (log entry 5). -/
def Obligations.PacketFieldsStandAtTheirBits : Prop :=
  ∀ nbits w : Nat, 8 < nbits → w < 2 ^ nbits →
    ∃ (ty : Byte) (payload : List Byte) (c : Byte),
      decodeTableWord nbits w = some (.pkt ty payload c) ∧
      ty.toNat = w % 256 ∧
      payload.length = w / 2 ^ 8 % 256 ∧
      (∀ i, (h : i < payload.length) → (payload[i]).toNat = w / 2 ^ (8 * (2 + i)) % 256) ∧
      c.toNat = w / 2 ^ (8 * (2 + payload.length)) % 256

/-- U10, U14, R61: an operation outside the contract is refused, each under its own name, in every
state. The names are the model's choice (log entry 8). -/
def Obligations.IllFormedOperationIsRefused : Prop :=
  (∀ (s : State) (bytes : List Byte) (count : Nat), bytes.length < count →
    exec (.checksum bytes count) s = .refused .countBeyondData) ∧
  (∀ (s : State) (ty : Byte) (payload : List Byte), 255 < payload.length →
    exec (.serialize ty payload) s = .refused .payloadTooLong) ∧
  (∀ (s : State) (ty c : Byte) (payload : List Byte), 255 < payload.length →
    exec (.pkt ty payload c) s = .refused .notAPacket) ∧
  (∀ i : Instr, WellFormed i = false → ∀ s : State, ∃ x, exec i s = .refused x)

/-- R26: the constants of the instance keep their values in every step. -/
def Obligations.InstanceConstantsNeverChange : Prop :=
  ∀ s t : State, step s = .next t → t.params = s.params

/-- R20, R48: no step gives `BUF` a cell at or above `CAP`, in any state, sound or not, and none takes a
cell below `CAP` away: `BUF` stays an array of `CAP` cells, each holding a byte. -/
def Obligations.NoCellBeyondTheCapacityIsWritten : Prop :=
  ∀ s t : State, step s = .next t →
    (Memory.inside s.params.cap s.framer.buf → Memory.inside t.params.cap t.framer.buf) ∧
    ((∀ i, i < s.params.cap → ∃ v, s.cell i = some v) →
      ∀ i, i < t.params.cap → ∃ v, t.cell i = some v)

/-- R91: whatever operation runs, the sink gets exactly the packets of the Delivered outcomes `P_STAT`
shows, once each and in their order; and each is a packet of `LEN + 3` bytes that verifies, 4 bytes at
least and at most `CAP`. The packet a step delivers is `BUF[0, EXPECTED)` as it stands in that step,
and the cursor is cleared whether or not the sink was invoked. -/
def Obligations.SinkGetsExactlyTheDeliveredPackets : Prop :=
  (∀ (i : Instr) (s t : State), exec i s = .next t →
    ∃ new : List Stat, t.stat = s.stat ++ new ∧
      t.sink = s.sink ++ new.flatMap (fun st => st.event.packets) ∧
      ∀ p, p ∈ new.flatMap (fun st => st.event.packets) →
        verify p = true ∧ 4 ≤ p.length ∧ p.length ≤ s.params.cap ∧
          ∃ len, p[1]? = some len ∧ p.length = len.toNat + 3) ∧
  (∀ (s t : State) (b : Byte), exec (.rxByte b) s = .next t →
    (∀ p, s.newEvents t = [.delivered p] → t.holds p) ∧
    (s.newEvents t ≠ [.pending] → t.count = 0))

/-- R21, R162: nothing that can be observed depends on a dead cell. Two sound states that agree on
everything but cells no later rule reads give the same outputs under every operation, and agree
again afterwards. -/
def Obligations.DeadCellsAreNeverObserved : Prop :=
  ∀ (i : Instr) (s t : State), s.Inv → t.Inv → WellFormed i = true →
    Framer.Agree s.params.cap s.framer t.framer → { t with framer := s.framer } = s →
    ∃ u v, exec i s = .next u ∧ exec i t = .next v ∧
      Framer.Agree u.params.cap u.framer v.framer ∧ { v with framer := u.framer } = u

/-! ## RESET and RX_BYTE -/

/-- R160: RESET completes in every state. It sets `FILLED` to 0, so the phase is Header and `OVF` 0,
shows no outcome, and changes no constant. `BUF` has its `CAP` cells, each holding a byte, which one is
open (log entry 1). Twice is the same as once, but for cells no later rule reads. The byte after it is
taken as offset 0. That RESET is an operation is the spec's own decision D12; that it leaves the mark
`done` in `results`, where the spec hands back nothing (R178), is the model's choice (log entry 2). -/
def Obligations.ResetDropsTheFrameInProgress : Prop :=
  ∀ s : State, ∃ t, exec .reset s = .next t ∧
    t.count = 0 ∧
    Framer.phase t.params.cap t.framer = .ok .header ∧
    Framer.ovf t.params.cap t.framer = false ∧
    t.params = s.params ∧ t.pending = s.pending ∧ t.stat = s.stat ∧ t.sink = s.sink ∧
    t.results = s.results ++ [.done] ∧
    (∀ i, i < s.params.cap → ∃ v, t.cell i = some v) ∧ (∀ i, s.params.cap ≤ i → t.cell i = none) ∧
    (∃ u, exec .reset t = .next u ∧ Framer.Agree t.params.cap t.framer u.framer ∧ u.count = 0 ∧
      u.params = t.params ∧ u.pending = t.pending ∧ u.stat = t.stat ∧ u.sink = t.sink) ∧
    (5 ≤ s.params.cap → ∀ b, ∃ u, exec (.rxByte b) t = .next u ∧ RxGives t b 0 1 .pending u)

/-- R84: the first three bytes of a frame are stored at the cursor, count one, and are Pending. -/
def Obligations.HeaderBytesAreStoredAndPending : Prop :=
  ∀ (s : State) (b : Byte), s.Inv → s.count < 3 →
    ∃ t, exec (.rxByte b) s = .next t ∧ RxGives s b s.count (s.count + 1) .pending t ∧
      Framer.phase t.params.cap t.framer = .ok .header

/-- R85: the fourth byte is stored at index 3 and classifies the frame on `EXPECTED`: runt, oversized,
complete, or to be collected. The spec's own decisions stand behind three of the four: D5 (runt), D6
(oversized), D4 (complete with this very byte). -/
def Obligations.FourthByteClassifiesTheFrame : Prop :=
  ∀ (s : State) (b len : Byte), s.Inv → s.count = 3 → s.cell 1 = some len →
    (len.toNat + 3 < 4 →
      ∃ t, exec (.rxByte b) s = .next t ∧ RxGives s b 3 0 (.discarded .runtPacket) t) ∧
    (len.toNat + 3 > s.params.cap →
      ∃ t, exec (.rxByte b) s = .next t ∧ RxGives s b 3 4 .pending t ∧
        Framer.phase t.params.cap t.framer = .ok .overflow) ∧
    (len.toNat + 3 = 4 →
      ∃ t p, exec (.rxByte b) s = .next t ∧ p.length = 4 ∧ t.holds p ∧
        RxGives s b 3 0 (verdict p) t) ∧
    (5 ≤ len.toNat + 3 → len.toNat + 3 ≤ s.params.cap →
      ∃ t, exec (.rxByte b) s = .next t ∧ RxGives s b 3 4 .pending t ∧
        Framer.phase t.params.cap t.framer = .ok .payload)

/-- R86: in the Payload phase a byte is stored at the cursor. If it is not the frame's last it is
Pending, and the phase and `EXPECTED` stay; if it is the last, the frame is complete and the next byte
starts another. Its outcome is the verdict on the frame `BUF[0, EXPECTED)` as it stands with this byte in
it. -/
def Obligations.PayloadBytesAreStoredUntilTheLast : Prop :=
  ∀ (s : State) (b len : Byte), s.Inv → 4 ≤ s.count → s.cell 1 = some len →
    len.toNat + 3 ≤ s.params.cap →
    (s.count + 1 < len.toNat + 3 →
      ∃ t, exec (.rxByte b) s = .next t ∧ RxGives s b s.count (s.count + 1) .pending t ∧
        Framer.phase t.params.cap t.framer = .ok .payload ∧ t.cell 1 = some len) ∧
    (s.count + 1 = len.toNat + 3 →
      ∃ t p, exec (.rxByte b) s = .next t ∧ RxGives s b s.count 0 (verdict p) t ∧
        p.length = len.toNat + 3 ∧ t.holds p ∧ t.cell 1 = some len ∧
        Framer.phase t.params.cap t.framer = .ok .header)

/-- R87: the byte that completes a frame that fits is stored; the frame `BUF[0, EXPECTED)` is
verified, and delivered or discarded; `FILLED` is 0 either way, and `BUF` is not cleared. -/
def Obligations.CompletingByteVerifiesAndEndsTheFrame : Prop :=
  ∀ (s : State) (b len : Byte), s.Inv → 3 ≤ s.count → s.cell 1 = some len →
    len.toNat + 3 ≤ s.params.cap → s.count + 1 = len.toNat + 3 →
    ∃ t p, exec (.rxByte b) s = .next t ∧ p.length = len.toNat + 3 ∧ t.holds p ∧
      (verify p = true → RxGives s b s.count 0 (.delivered p) t ∧ t.sink = s.sink ++ [p]) ∧
      (verify p = false →
        RxGives s b s.count 0 (.discarded .checksumMismatch) t ∧ t.sink = s.sink) ∧
      Framer.phase t.params.cap t.framer = .ok .header

/-- R88: in the Overflow phase every byte is written to `BUF[4]` alone; the frame is drained to its
declared end without being verified, and then discarded; the sink gets nothing. In all, an oversized
frame takes exactly `EXPECTED` bytes, its header included. To drain it, and through `BUF[4]`, is the
spec's own decision (D6, D7). -/
def Obligations.OversizedFrameIsDrainedToItsEnd : Prop :=
  (∀ (s : State) (b len : Byte), s.Inv → 4 ≤ s.count → s.cell 1 = some len →
    s.params.cap < len.toNat + 3 →
    (s.count + 1 < len.toNat + 3 →
      ∃ t, exec (.rxByte b) s = .next t ∧ RxGives s b 4 (s.count + 1) .pending t ∧
        Framer.phase t.params.cap t.framer = .ok .overflow ∧ t.sink = s.sink) ∧
    (s.count + 1 = len.toNat + 3 →
      ∃ t, exec (.rxByte b) s = .next t ∧ RxGives s b 4 0 (.discarded .oversizedPacket) t ∧
        Framer.phase t.params.cap t.framer = .ok .header ∧ t.sink = s.sink)) ∧
  (∀ (s : State) (p : List Byte) (len : Byte), s.Inv → s.count = 0 → p[1]? = some len →
    p.length = len.toNat + 3 → s.params.cap < len.toNat + 3 →
    ∃ t, execAll (p.map Instr.rxByte) s = .next t ∧ t.count = 0 ∧ t.sink = s.sink ∧
      (∀ k, k < 4 → t.cell k = p[k]?) ∧
      s.newEvents t = List.replicate (len.toNat + 2) .pending ++ [.discarded .oversizedPacket])

/-- R89, R143: a frame that declares no payload ends at its fourth byte and is discarded as a runt;
nothing reaches the sink and the next byte starts another frame. In all it takes four bytes of the
stream, whatever its third and fourth bytes are. All of it is the spec's own decision D5. -/
def Obligations.RuntTakesFourBytes : Prop :=
  (∀ (s : State) (b : Byte), s.Inv → s.count = 3 → s.cell 1 = some 0#8 →
    ∃ t, exec (.rxByte b) s = .next t ∧ RxGives s b 3 0 (.discarded .runtPacket) t ∧
      t.sink = s.sink ∧ Framer.phase t.params.cap t.framer = .ok .header) ∧
  (∀ (s : State) (ty b₂ b₃ : Byte), s.Inv → s.count = 0 →
    ∃ t, execAll [.rxByte ty, .rxByte 0#8, .rxByte b₂, .rxByte b₃] s = .next t ∧
      t.count = 0 ∧ t.sink = s.sink ∧
      s.newEvents t = [.pending, .pending, .pending, .discarded .runtPacket] ∧
      s.newResults t = [.event .pending, .event .pending, .event .pending,
        .event (.discarded .runtPacket)])

/-- R81: the byte goes to the cursor in the Header and Payload phases and to index 4 in the Overflow
phase, the phase being that before the step; the index is below `CAP`; no other cell changes. The rest
of the frame: the instance, the invocations, and one outcome more. Index 4 is the spec's own decision
D7. -/
def Obligations.ByteIsWrittenAtOneIndexOnly : Prop :=
  ∀ (s t : State) (b : Byte), exec (.rxByte b) s = .next t →
    ∃ ph w, Framer.phase s.params.cap s.framer = .ok ph ∧
      (ph = .overflow → w = 4) ∧ (ph ≠ .overflow → w = s.count) ∧ w < s.params.cap ∧
      t.cell w = some b ∧ (∀ i, i ≠ w → t.cell i = s.cell i) ∧
      t.params = s.params ∧ t.resets = s.resets ∧ t.pending = s.pending ∧
      (∃ st, t.stat = s.stat ++ [st] ∧ t.results = s.results ++ [.event st.event])

/-- R82: the count goes to `FILLED + 1` when the frame goes on, and to 0 when it ends; no other value
is assigned. -/
def Obligations.CountGoesUpByOneOrToZero : Prop :=
  ∀ (s t : State) (b : Byte), exec (.rxByte b) s = .next t →
    ∃ e, s.newEvents t = [e] ∧
      (e = .pending → t.count = s.count + 1) ∧ (e ≠ .pending → t.count = 0)

/-- R23 (a) to (c): the bounds of `FILLED` in a sound state. -/
def Obligations.CountStaysInsideItsBounds : Prop :=
  ∀ s : State, s.Inv →
    s.count ≤ 257 ∧
    (4 ≤ s.count → ∃ len, s.cell 1 = some len ∧ 2 ≤ len.toNat ∧ s.count < len.toNat + 3) ∧
    (∀ ph, Framer.phase s.params.cap s.framer = .ok ph → ph ≠ .overflow → s.count < s.params.cap)

/-- R24: `PHASE` is the view the rule gives, and `BUF[1]` does not change while `FILLED ≥ 4`. That the
phase is a view and not a register is the spec's own decision D9. -/
def Obligations.PhaseIsAViewOfTheCount : Prop :=
  ∀ s : State, s.Inv →
    (s.count < 4 → Framer.phase s.params.cap s.framer = .ok .header) ∧
    (4 ≤ s.count → ∃ len, s.cell 1 = some len ∧
      (len.toNat + 3 > s.params.cap → Framer.phase s.params.cap s.framer = .ok .overflow) ∧
      (len.toNat + 3 ≤ s.params.cap → Framer.phase s.params.cap s.framer = .ok .payload) ∧
      ∀ b t, exec (.rxByte b) s = .next t → t.cell 1 = some len)

/-- R29: `OVF` is 1 exactly in the Overflow phase. It rises in the step that stores the fourth byte of
a frame whose `EXPECTED > CAP`, falls in the step that ends the drain, and is 0 after RESET. The level
is the spec's own decision D10. -/
def Obligations.OverflowLevelRisesAndFalls : Prop :=
  (∀ s : State, Framer.ovf s.params.cap s.framer = true ↔
    Framer.phase s.params.cap s.framer = .ok .overflow) ∧
  (∀ (s t : State) (b : Byte), s.Inv → exec (.rxByte b) s = .next t →
    (Framer.ovf s.params.cap s.framer = false →
      (Framer.ovf t.params.cap t.framer = true ↔
        s.count = 3 ∧ ∃ len, s.cell 1 = some len ∧ s.params.cap < len.toNat + 3)) ∧
    (Framer.ovf s.params.cap s.framer = true →
      (Framer.ovf t.params.cap t.framer = false ↔
        ∃ len, s.cell 1 = some len ∧ s.count + 1 = len.toNat + 3))) ∧
  (∀ s t : State, exec .reset s = .next t → Framer.ovf t.params.cap t.framer = false)

/-- R28: the code of every outcome; codes 6 and 7 are never produced; code 5 is POLL's alone, and a
step of RX_BYTE shows one of 0 to 4. The numbers are the spec's own decision D10. -/
def Obligations.EventCodesAreThoseOfTheTable : Prop :=
  Event.ev .pending = 0#3 ∧ (∀ p, Event.ev (.delivered p) = 1#3) ∧
  Event.ev (.discarded .checksumMismatch) = 2#3 ∧ Event.ev (.discarded .oversizedPacket) = 3#3 ∧
  Event.ev (.discarded .runtPacket) = 4#3 ∧ Event.ev (.aborted .transportUnavailable) = 5#3 ∧
  (∀ e : Event, e.ev ≠ 6#3 ∧ e.ev ≠ 7#3) ∧
  (∀ (i : Instr) (s t : State), exec i s = .next t →
    ∃ new : List Stat, t.stat = s.stat ++ new ∧ ∀ st ∈ new, st.ev = st.event.ev ∧
      (st.ev = 5#3 → ∃ tr, i = .poll tr))

/-- R92: from `FILLED = 0`, a frame takes 4 bytes of the stream if it declares no payload, and
`LEN + 3` otherwise; every byte but the last is Pending, the last is not, and the next frame starts
with the next byte. The spec derives it from R83, with its decision D5 for the runt. -/
def Obligations.EveryByteBelongsToOneFrame : Prop :=
  ∀ (s : State) (bs : List Byte) (len : Byte), s.Inv → s.count = 0 → bs[1]? = some len →
    bs.length = (if len.toNat = 0 then 4 else len.toNat + 3) →
    ∃ t e, execAll (bs.map Instr.rxByte) s = .next t ∧ t.count = 0 ∧ e ≠ .pending ∧
      s.newEvents t = List.replicate (bs.length - 1) .pending ++ [e]

/-- R90: the class of a frame is fixed at its fourth byte. No byte leads from the Payload phase to
Overflow or back, and none leads from the Header phase to either before the fourth. -/
def Obligations.FrameClassIsFixedAtTheFourthByte : Prop :=
  ∀ (s t : State) (b : Byte) (ph ph' : Phase), s.Inv → exec (.rxByte b) s = .next t →
    Framer.phase s.params.cap s.framer = .ok ph → Framer.phase t.params.cap t.framer = .ok ph' →
    (ph = .payload → ph' ≠ .overflow) ∧ (ph = .overflow → ph' ≠ .payload) ∧
    (ph = .header → ph' ≠ .header → s.count = 3)

/-- R80, R23: outside the states the rules admit RX_BYTE has no step, and the machine stops with a
fault that says why: the cursor past the frame's end, no cell 1 to hold a length byte, no cell at the
cursor. That it stops there is the model's choice (log entry 7). -/
def Obligations.UnsoundStatesFaultByName : Prop :=
  (∀ (s : State) (b len : Byte), 1 < s.params.cap → 4 ≤ s.count → s.cell 1 = some len →
    len.toNat + 3 ≤ s.count → exec (.rxByte b) s = .fault .cursorPastFrame) ∧
  (∀ (s : State) (b : Byte), 1 < s.params.cap → 4 ≤ s.count → s.cell 1 = none →
    exec (.rxByte b) s = .fault (.noSuchCell 1)) ∧
  (∀ (s : State) (b : Byte), s.count < 4 → s.params.cap ≤ s.count →
    exec (.rxByte b) s = .fault (.noSuchCell s.count))

/-! ## POLL, and packets on the stream -/

/-- R97: when `available()` reports an error the poll aborts for this tick, and changes nothing but
the outcome it shows. That its result lists the reads, here none, is the model's choice (log entry 12). That `available()` can answer an error is the spec's own decision D14. -/
def Obligations.TransportErrorAbortsThePoll : Prop :=
  ∀ (s : State) (tr : Transport), tr.avail = none →
    ∃ t, exec (.poll tr) s = .next t ∧ t.framer = s.framer ∧ t.sink = s.sink ∧
      t.params = s.params ∧ t.resets = s.resets ∧ t.pending = s.pending ∧
      t.results = s.results ++ [.poll [] [.aborted .transportUnavailable]] ∧
      s.newEvents t = [.aborted .transportUnavailable]

/-- R94: a POLL with nothing available, or whose first read answers no byte, ends at once: no outcome,
nothing changed. That an empty read ends it is the spec's own decision D13; that the result lists
the read is the model's choice (log entry 12). -/
def Obligations.PollWithNothingToReadEndsAtOnce : Prop :=
  ∀ (s : State) (tr : Transport) (avail : Nat), s.Inv → tr.avail = some avail →
    (avail = 0 → exec (.poll tr) s = .next (s.answer (.poll [] []))) ∧
    (0 < avail → (tr.stream = [] ∨ tr.limits.head? = some 0) →
      ∃ req, 0 < req ∧ exec (.poll tr) s = .next (s.answer (.poll [⟨req, 0⟩] [])))

/-- R94, R95: one turn of the loop. The request is `min(avail, 4 - FILLED)` in the Header phase,
`min(avail, EXPECTED - FILLED)` in the Payload phase and `min(avail, EXPECTED - FILLED, CAP - 4)` in
the Overflow phase; the chunk it answers is fed byte by byte, and the poll goes on with what is left.
The request sizes are the spec's own decision D13; the form of the transport's answers is the model's
choice (log entry 6), and so is that the result lists the reads (log entry 12). -/
def Obligations.PollReadsAChunkAndGoesOn : Prop :=
  ∀ (s : State) (tr : Transport) (avail req : Nat) (ph : Phase), s.Inv →
    tr.avail = some avail → 0 < avail → Framer.phase s.params.cap s.framer = .ok ph →
    (ph = .header → req = min avail (4 - s.count)) →
    (ph = .payload → ∀ len, s.cell 1 = some len → req = min avail (len.toNat + 3 - s.count)) →
    (ph = .overflow → ∀ len, s.cell 1 = some len →
      req = min (min avail (len.toNat + 3 - s.count)) (s.params.cap - 4)) →
    0 < (Transport.chunk tr req).length →
    0 < req ∧ (Transport.chunk tr req).length ≤ req ∧
    ∃ s₁ es t v calls outs,
      feed (Transport.chunk tr req) s = .ok (s₁, es) ∧
      exec (.poll { Transport.after tr req with
        avail := some (avail - (Transport.chunk tr req).length) }) s₁ = .next v ∧
      v.results = s.results ++ [.poll calls outs] ∧
      exec (.poll tr) s = .next t ∧
      t.framer = v.framer ∧ t.stat = v.stat ∧ t.sink = v.sink ∧
      t.params = s.params ∧ t.resets = s.resets ∧ t.pending = s.pending ∧
      t.results = s.results ++
        [.poll (⟨req, (Transport.chunk tr req).length⟩ :: calls) (nonPending es ++ outs)]

/-- R95: no request reaches beyond the end of the current frame, so at most the last byte of the chunk
it answers ends a frame. -/
def Obligations.ChunkEndsAtMostOneFrame : Prop :=
  ∀ (s t : State) (avail req : Nat) (bs : List Byte) (es : List Event), s.Inv →
    Framer.request s.params.cap s.framer avail = .ok req → bs.length ≤ req →
    feed bs s = .ok (t, es) → ∀ e ∈ es.dropLast, e = .pending

/-- R93, R94, R177: a POLL that is not aborted completes from every sound state. Its reads ask for at
least one byte each and get at most what they ask for; together they take no more than `avail`; every
read but the last gets a byte; and it stops only when `avail` is used up or a read got nothing (the
spec's own decision D13). That the result lists the reads is the model's choice (log entry 12). -/
def Obligations.PollReadsWithinItsCount : Prop :=
  ∀ (s : State) (tr : Transport) (avail : Nat), s.Inv → tr.avail = some avail →
    ∃ t calls outs, exec (.poll tr) s = .next t ∧ t.results = s.results ++ [.poll calls outs] ∧
      (∀ c ∈ calls, 0 < c.req ∧ c.k ≤ c.req) ∧
      (∀ c ∈ calls.dropLast, 0 < c.k) ∧
      (calls.map ReadCall.k).sum ≤ avail ∧
      ((calls.map ReadCall.k).sum = avail ∨ ∃ c, calls.getLast? = some c ∧ c.k = 0)

/-- R96: chunking does not matter. A sequence of POLLs, none of which aborts, leaves the framer, the
outcomes and the sink as one RX_BYTE for each byte the transports handed over does; and the POLLs
list exactly the outcomes other than Pending. The spec derives it from R94. -/
def Obligations.PollsEqualByteWiseReception : Prop :=
  ∀ (ts : List Transport) (s : State), s.Inv → (∀ t ∈ ts, t.avail ≠ none) →
    ∃ u v, execAll (ts.map Instr.poll) s = .next u ∧
      execAll ((handedOver ts (s.newResults u)).map Instr.rxByte) s = .next v ∧
      (s.newResults u).length = ts.length ∧
      u.framer = v.framer ∧ u.stat = v.stat ∧ u.sink = v.sink ∧
      (s.newResults u).flatMap Result.outs = nonPending (s.newEvents v)

/-- R98: whatever the chunks in which packets that fit arrive, one after the other from `FILLED = 0`,
the polls list one outcome a packet, in order: the packet delivered, with exactly its bytes, if it
verifies, and a checksum mismatch if not; the sink gets the verified ones, in order, and the framer
ends at `FILLED = 0`. After any packet outcome the count is 0. -/
def Obligations.PacketsSurviveEveryFragmentation : Prop :=
  (∀ (ts : List Transport) (ps : List (List Byte)) (s u : State), s.Inv → s.count = 0 →
    (∀ t ∈ ts, t.avail ≠ none) →
    (∀ p ∈ ps, ∃ len, p[1]? = some len ∧ p.length = len.toNat + 3 ∧ 1 ≤ len.toNat ∧
      p.length ≤ s.params.cap) →
    execAll (ts.map Instr.poll) s = .next u →
    handedOver ts (s.newResults u) = ps.flatten →
    (s.newResults u).flatMap Result.outs = ps.map verdict ∧
      u.sink = s.sink ++ ps.filter verify ∧ u.count = 0) ∧
  (∀ (s t : State) (b : Byte), exec (.rxByte b) s = .next t →
    s.newEvents t ≠ [.pending] → t.count = 0)

/-- R99: a frame that cannot fit is never delivered and writes nothing past index 4, in whatever
chunks it arrives; and at the boundary, the longest packet is delivered at capacity 258 and takes the
oversized path at 257. The outcome and the index 4 rest on the spec's own decisions D6 and D7. -/
def Obligations.OversizedFrameNeverReachesTheSink : Prop :=
  ∀ (ts : List Transport) (p : List Byte) (len : Byte) (s u : State), s.Inv → s.count = 0 →
    (∀ t ∈ ts, t.avail ≠ none) → p[1]? = some len → p.length = len.toNat + 3 →
    execAll (ts.map Instr.poll) s = .next u → handedOver ts (s.newResults u) = p →
    (len.toNat + 3 > s.params.cap →
      u.sink = s.sink ∧ u.count = 0 ∧
      (s.newResults u).flatMap Result.outs = [.discarded .oversizedPacket] ∧
      ∀ i, 4 < i → u.cell i = s.cell i) ∧
    (len.toNat = 255 → s.params.cap = 258 → verify p = true →
      u.sink = s.sink ++ [p] ∧ u.count = 0) ∧
    (len.toNat = 255 → s.params.cap = 257 →
      u.sink = s.sink ∧ (s.newResults u).flatMap Result.outs = [.discarded .oversizedPacket])

/-- R136: what the encoder makes, the framer delivers. The bytes of SERIALIZE, and those of
BUILD_REQUEST, fed in any chunks to a framer at `FILLED = 0`, give one outcome, their delivery. The spec
derives it from R127 and R98. -/
def Obligations.EncodedPacketLoopsBack : Prop :=
  ∀ (ts : List Transport) (s u : State), s.Inv → s.count = 0 → (∀ t ∈ ts, t.avail ≠ none) →
    execAll (ts.map Instr.poll) s = .next u →
    (∀ (ty : Byte) (payload : List Byte), payload.length ≤ 255 → 1 ≤ payload.length →
      payload.length + 3 ≤ s.params.cap →
      handedOver ts (s.newResults u) = serialize ty payload →
      (s.newResults u).flatMap Result.outs = [.delivered (serialize ty payload)] ∧
        u.sink = s.sink ++ [serialize ty payload] ∧ u.count = 0) ∧
    (1 ≤ s.params.reqLen.toNat → s.params.reqLen.toNat + 3 ≤ s.params.cap →
      handedOver ts (s.newResults u) = buildRequest s.params →
      (s.newResults u).flatMap Result.outs = [.delivered (buildRequest s.params)] ∧ u.count = 0)

/-- R40, R60, R74: a packet on the stream does what RX_BYTE does for each of its bytes, offset 0
first, and hands back every outcome. That PKT stands for this is the model's choice (log entry 5). -/
def Obligations.PacketIsReceivedByteByByte : Prop :=
  ∀ (s : State) (ty c : Byte) (payload : List Byte), s.Inv → payload.length ≤ 255 →
    ∃ t u, exec (.pkt ty payload c) s = .next t ∧
      execAll ((ty :: BitVec.ofNat 8 payload.length :: payload ++ [c]).map Instr.rxByte) s
        = .next u ∧
      t.framer = u.framer ∧ t.stat = u.stat ∧ t.sink = u.sink ∧
      t.params = s.params ∧ t.resets = s.resets ∧ t.pending = s.pending ∧
      t.results = s.results ++ [.events (s.newEvents u)]

/-! ## The checksum codec -/

/-- R120: CHECKSUM adds the counted bytes mod 256, XORs with 0xFF and adds 1 mod 256; no byte counted
gives 0. It hands the byte back and changes nothing else. -/
def Obligations.ChecksumIsTheComplementOfTheSum : Prop :=
  ∀ (s : State) (bytes : List Byte) (count : Nat), count ≤ bytes.length →
    ∃ v, exec (.checksum bytes count) s = .next { s with results := s.results ++ [.byte v] } ∧
      v.toNat = ((((bytes.take count).map BitVec.toNat).sum % 256 ^^^ 0xFF) + 1) % 256 ∧
      (count = 0 → v = 0#8)

/-- R124: the checksum depends neither on the order of the bytes nor on when the sum is reduced. -/
def Obligations.ChecksumIgnoresTheOrderOfBytes : Prop :=
  (∀ bs cs : List Byte, bs.Perm cs → ∀ s : State,
    exec (.checksum bs bs.length) s = exec (.checksum cs cs.length) s) ∧
  (∀ (bs : List Byte) (t : Byte), (sumBytes t bs).toNat =
    (t.toNat + (bs.map BitVec.toNat).sum) % 256)

/-- R125: the checksum is the negation mod 256 of the sum of the counted bytes; 0 and 0x80 are the
two sums that equal their checksum. The spec derives it from R120. -/
def Obligations.ChecksumIsTheNegatedSum : Prop :=
  (∀ t : Byte, ((t ^^^ 0xFF#8) + 1#8).toNat = (256 - t.toNat) % 256) ∧
  (∀ (bytes : List Byte) (count : Nat), count ≤ bytes.length →
    (checksum bytes count).toNat =
      (256 - ((bytes.take count).map BitVec.toNat).sum % 256) % 256) ∧
  (∀ bytes : List Byte, checksum bytes bytes.length = sumBytes 0#8 bytes ↔
    sumBytes 0#8 bytes = 0#8 ∨ sumBytes 0#8 bytes = 0x80#8)

/-- R121: VERIFY answers true exactly when the length byte is there, the checksum byte it points to is
there, and that byte is the checksum of all bytes before it; later bytes are ignored. It hands the
answer back and changes nothing else. The two length guards are the spec's own decision D17. -/
def Obligations.VerifyComparesTheChecksumByte : Prop :=
  ∀ (s : State) (p : List Byte),
    ∃ v, exec (.verify p) s = .next { s with results := s.results ++ [.bool v] } ∧
      (v = true ↔ ∃ len, p[1]? = some len ∧ len.toNat + 3 ≤ p.length ∧
        p[len.toNat + 2]? = some (checksum p (len.toNat + 2))) ∧
      (∀ len, p[1]? = some len → len.toNat + 3 ≤ p.length →
        v = verify (p.take (len.toNat + 3)))

/-- R126: a sequence that is long enough verifies exactly when its first `LEN + 3` bytes sum to 0
mod 256. The spec derives it from R121 and R125. -/
def Obligations.VerifyHoldsIffTheBytesSumToZero : Prop :=
  ∀ (p : List Byte) (len : Byte), p[1]? = some len → len.toNat + 3 ≤ p.length →
    (verify p = true ↔ ((p.take (len.toNat + 3)).map BitVec.toNat).sum % 256 = 0)

/-- R128: changing exactly one byte of a packet that verifies, other than its length byte, makes it
fail. The spec derives it from R126. -/
def Obligations.SingleByteChangeIsAlwaysDetected : Prop :=
  ∀ (p : List Byte) (len v : Byte) (i : Nat), verify p = true → p[1]? = some len →
    i ≠ 1 → i ≤ len.toNat + 2 → p[i]? ≠ some v → verify (p.set i v) = false

/-- R26, R33, R123: CHECKSUM and VERIFY touch no state and show no outcome. -/
def Obligations.CodecTouchesNoState : Prop :=
  ∀ (i : Instr) (s t : State), (∃ bytes count, i = .checksum bytes count) ∨ (∃ p, i = .verify p) →
    exec i s = .next t →
    t.framer = s.framer ∧ (∀ j, t.cell j = s.cell j) ∧ t.params = s.params ∧
      t.resets = s.resets ∧ t.pending = s.pending ∧ t.stat = s.stat ∧ t.sink = s.sink ∧
      ∃ r, t.results = s.results ++ [r]

/-! ## The packet encoder -/

/-- R130: SERIALIZE lays out type, length, payload and the checksum of all of them, `LEN + 3` bytes;
it hands the packet back and changes nothing else. That it is an operation is the spec's own decision
D16. -/
def Obligations.SerializeLaysOutThePacket : Prop :=
  ∀ (s : State) (ty : Byte) (payload : List Byte), payload.length ≤ 255 →
    ∃ r, exec (.serialize ty payload) s = .next { s with results := s.results ++ [.bytes r] } ∧
      r.length = payload.length + 3 ∧ r[0]? = some ty ∧
      r[1]? = some (BitVec.ofNat 8 payload.length) ∧
      (∀ k, k < payload.length → r[2 + k]? = payload[k]?) ∧
      (∃ c, r[payload.length + 2]? = some c ∧
        c.toNat = (256 - (ty.toNat + payload.length + (payload.map BitVec.toNat).sum) % 256) % 256)

/-- R127: what SERIALIZE makes, VERIFY accepts; the request too. The spec derives it from R126 and
R130. -/
def Obligations.SerializedPacketVerifies : Prop :=
  (∀ (ty : Byte) (payload : List Byte), payload.length ≤ 255 →
    verify (serialize ty payload) = true) ∧
  (∀ s : State, s.Inv → verify (buildRequest s.params) = true) ∧
  (∀ t : Byte, -(-t) = t)

/-- R132: the image of the request, byte by byte; BUILD_REQUEST hands it back and changes nothing
else. The spec derives the checksum row from R131 and R125. -/
def Obligations.RequestImageIsThatOfTheTemplate : Prop :=
  ∀ s : State, s.params.reqLead.length ≤ s.params.reqLen.toNat →
    ∃ r, exec .buildRequest s = .next { s with results := s.results ++ [.bytes r] } ∧
      r.length = s.params.reqLen.toNat + 3 ∧
      r[0]? = some s.params.reqType ∧ r[1]? = some s.params.reqLen ∧
      (∀ k, k < s.params.reqLead.length → r[2 + k]? = s.params.reqLead[k]?) ∧
      (∀ j, 2 + s.params.reqLead.length ≤ j → j ≤ 1 + s.params.reqLen.toNat →
        r[j]? = some 0#8) ∧
      (∃ c, r[2 + s.params.reqLen.toNat]? = some c ∧
        c.toNat = (256 - (s.params.reqType.toNat + s.params.reqLen.toNat +
          (s.params.reqLead.map BitVec.toNat).sum) % 256) % 256)

/-- R137, U15: a template that is none is refused (log entry 8 for the name). -/
def Obligations.BadTemplateIsRefused : Prop :=
  ∀ s : State, s.params.reqLen.toNat < s.params.reqLead.length →
    exec .buildRequest s = .refused .notAnInstance

/-- R133: SERIALIZE and BUILD_REQUEST neither read nor write the framer's state, show no outcome and
reach no sink: from two states of one instance they hand back the same, and each state keeps all it
held. -/
def Obligations.EncoderIsPure : Prop :=
  ∀ (i : Instr) (s t u : State), (∃ ty payload, i = .serialize ty payload) ∨ i = .buildRequest →
    s.params = t.params → exec i s = .next u →
    ∃ r, u = { s with results := s.results ++ [r] } ∧
      exec i t = .next { t with results := t.results ++ [r] }
end

