-- ==== Sys2Proof/Laws/Codec.lean ====
section
/-! SUPPORT. The laws of the byte sum and of the two's complement (spec R124, R125). -/

namespace Sys2Proof.Machine

/-- The start value of a sum can be added at the end. -/
theorem sumBytes_start (t : Byte) (bs : List Byte) : sumBytes t bs = t + sumBytes 0#8 bs := by
  induction bs generalizing t with
  | nil => simp [sumBytes]
  | cons b bs ih => simp only [sumBytes]; rw [ih, ih (0#8 + b)]; simp [BitVec.add_assoc]

@[simp] theorem sumBytes_nil (t : Byte) : sumBytes t [] = t := rfl

theorem sumBytes_cons (b : Byte) (bs : List Byte) : sumBytes 0#8 (b :: bs) = b + sumBytes 0#8 bs := by
  simp only [sumBytes]; rw [sumBytes_start]; simp

/-- The sum of a concatenation. -/
theorem sumBytes_append (s t : List Byte) :
    sumBytes 0#8 (s ++ t) = sumBytes 0#8 s + sumBytes 0#8 t := by
  induction s with
  | nil => simp
  | cons b s ih => simp [sumBytes_cons, ih, BitVec.add_assoc]

/-- Bytes of value zero add nothing. -/
@[simp] theorem sumBytes_zeros (n : Nat) : sumBytes 0#8 (List.replicate n 0#8) = 0#8 := by
  induction n with
  | zero => rfl
  | succ n ih => simp [List.replicate_succ, sumBytes_cons, ih]

/-- The sum, as a number, is the sum of the numbers mod 256. -/
theorem sumBytes_toNat (bs : List Byte) :
    (sumBytes 0#8 bs).toNat = (bs.map BitVec.toNat).sum % 256 := by
  induction bs with
  | nil => rfl
  | cons b bs ih => simp [sumBytes_cons, ih, BitVec.toNat_add]

/-- XOR with 0xFF and adding one is negation. -/
theorem complement_eq_neg (t : Byte) : (t ^^^ 0xFF#8) + 1#8 = -t := by
  rw [BitVec.neg_eq_not_add, BitVec.not_def, BitVec.xor_comm t]
  rfl

theorem checksum_eq_neg (bs : List Byte) (count : Nat) :
    checksum bs count = -sumBytes 0#8 (bs.take count) := complement_eq_neg _

/-- What VERIFY answers, in one equation over the length and the two bytes it compares. -/
theorem verify_cons (ty len : Byte) (body : List Byte) :
    verify (ty :: len :: body) =
      (decide (len.toNat + 1 ≤ body.length) &&
        body[len.toNat]? == some (checksum (ty :: len :: body) (len.toNat + 2))) := by
  show (if body.length + 2 < len.toNat + Config.overhead then false else _) = _
  split
  · rename_i h
    have : ¬ len.toNat + 1 ≤ body.length := by
      simp only [Config.overhead] at h; omega
    rw [decide_eq_false this, Bool.false_and]
  · rename_i h
    have : len.toNat + 1 ≤ body.length := by
      simp only [Config.overhead] at h; omega
    rw [decide_eq_true this, Bool.true_and]

end Sys2Proof.Machine
end

