-- ==== Sys2Proof/Laws/Memory.lean ====
section
/-! SUPPORT. The laws of `BUF`: read after write, the canonical form, and what the checked accesses
answer. -/

namespace Sys2Proof.Machine

@[simp] theorem Memory.read_nil (i : Nat) : Memory.read [] i = none := rfl

/-- A write gives its cell the value written and leaves every other cell alone. -/
theorem Memory.read_write (m : Memory) (i : Nat) (v : Byte) (j : Nat) :
    Memory.read (Memory.write m i v) j = if i = j then some v else Memory.read m j := by
  induction m with
  | nil => simp [Memory.write, Memory.read]
  | cons c m ih =>
    obtain ⟨a, w⟩ := c
    simp only [Memory.write]
    split
    · simp [Memory.read]
    · split
      · subst_vars
        by_cases h : a = j <;> simp [Memory.read, h]
      · by_cases h : a = j
        · subst h; simp [Memory.read, *]
        · simp [Memory.read, h, ih]

@[simp] theorem Memory.read_write_same (m : Memory) (i : Nat) (v : Byte) :
    Memory.read (Memory.write m i v) i = some v := by simp [Memory.read_write]

theorem Memory.read_write_other {m : Memory} {i j : Nat} {v : Byte} (h : i ≠ j) :
    Memory.read (Memory.write m i v) j = Memory.read m j := by simp [Memory.read_write, h]

theorem Memory.mem_write {m : Memory} {i : Nat} {v : Byte} {c : Host.Cell}
    (h : c ∈ Memory.write m i v) : c = (i, v) ∨ c ∈ m := by
  induction m with
  | nil => simpa [Memory.write] using h
  | cons d m ih =>
    obtain ⟨a, w⟩ := d
    simp only [Memory.write] at h
    split at h
    · simpa using h
    · split at h
      · rcases List.mem_cons.mp h with h | h <;> simp [h]
      · rcases List.mem_cons.mp h with h | h
        · simp [h]
        · rcases ih h with h | h <;> simp [h]

/-- A write keeps the canonical form. -/
theorem Memory.wf_write {m : Memory} {i : Nat} {v : Byte} (h : Memory.wf m) :
    Memory.wf (Memory.write m i v) := by
  refine ⟨?_, fun c hc => by simp [Memory.unlisted]⟩
  obtain ⟨h, -⟩ := h
  induction m with
  | nil => simp [Memory.write]
  | cons d m ih =>
    obtain ⟨a, w⟩ := d
    obtain ⟨hd, hm⟩ := List.pairwise_cons.mp h
    simp only [Memory.write]
    split
    · refine List.pairwise_cons.mpr ⟨fun c hc => ?_, h⟩
      rcases List.mem_cons.mp hc with rfl | hc
      · assumption
      · exact lt_trans ‹i < a› (hd c hc)
    · split
      · subst_vars; exact List.pairwise_cons.mpr ⟨hd, hm⟩
      · refine List.pairwise_cons.mpr ⟨fun c hc => ?_, ih hm⟩
        rcases Memory.mem_write hc with rfl | hc
        · show a < i; omega
        · exact hd c hc

/-- A write inside the buffer keeps every value inside it. -/
theorem Memory.inside_write {cap : Nat} {m : Memory} {i : Nat} {v : Byte}
    (h : Memory.inside cap m) (hi : i < cap) : Memory.inside cap (Memory.write m i v) := by
  intro c hc
  rcases Memory.mem_write hc with rfl | hc
  · exact hi
  · exact h c hc

theorem Memory.mem_fill {f : Nat → Byte} {i n : Nat} {c : Host.Cell}
    (h : c ∈ Memory.fill f i n) : i ≤ c.1 ∧ c.1 < i + n := by
  induction n generalizing i with
  | zero => cases h
  | succ n ih =>
    rcases List.mem_cons.mp h with rfl | h
    · exact ⟨le_refl i, by show i < _; omega⟩
    · have := ih h; omega

/-- What the buffer of a reset holds. -/
theorem Memory.read_fill (f : Nat → Byte) (i n j : Nat) :
    Memory.read (Memory.fill f i n) j = if i ≤ j ∧ j < i + n then some (f j) else none := by
  induction n generalizing i with
  | zero => rw [if_neg (by omega)]; rfl
  | succ n ih =>
    simp only [Memory.fill, Memory.read]
    split
    · rw [if_pos (by omega)]; subst_vars; rfl
    · rw [ih]
      exact if_congr (by omega) rfl rfl

/-- The buffer of a reset is in canonical form. -/
theorem Memory.wf_fill (f : Nat → Byte) (i n : Nat) : Memory.wf (Memory.fill f i n) := by
  refine ⟨?_, fun c hc => by simp [Memory.unlisted]⟩
  induction n generalizing i with
  | zero => exact List.Pairwise.nil
  | succ n ih =>
    refine List.pairwise_cons.mpr ⟨fun c hc => ?_, ih (i + 1)⟩
    have := Memory.mem_fill hc
    show i < c.1; omega

/-- A cell with a value is a cell inside the buffer. -/
theorem Memory.lt_of_read {cap : Nat} {m : Memory} {i : Nat} {v : Byte}
    (h : Memory.inside cap m) (hr : Memory.read m i = some v) : i < cap := by
  induction m with
  | nil => simp at hr
  | cons c m ih =>
    obtain ⟨a, w⟩ := c
    by_cases ha : a = i
    · exact ha ▸ h (a, w) (by simp)
    · exact ih (fun d hd => h d (by simp [hd])) (by simpa [Memory.read, ha] using hr)

/-- A read answers a value exactly when the cell is inside the buffer and holds that value. -/
theorem Memory.load_ok {cap : Nat} {m : Memory} {i : Nat} {v : Byte} :
    Memory.load cap m i = .ok v ↔ i < cap ∧ Memory.read m i = some v := by
  unfold Memory.load
  split
  · cases h : Memory.read m i <;> simp [*]
  · simp [*]

/-- A write goes through exactly when the cell is inside the buffer. -/
theorem Memory.store_ok {cap : Nat} {m m' : Memory} {i : Nat} {v : Byte} :
    Memory.store cap m i v = .ok m' ↔ i < cap ∧ m' = Memory.write m i v := by
  unfold Memory.store
  split <;> simp [*, eq_comm]

/-- A range that is read is as long as asked for, and holds what the cells hold. -/
theorem Memory.loadRange_ok {cap : Nat} {m : Memory} {i n : Nat} {p : List Byte}
    (h : Memory.loadRange cap m i n = .ok p) :
    p.length = n ∧ ∀ k, k < n → p[k]? = Memory.read m (i + k) := by
  induction n generalizing i p with
  | zero => cases h; simp
  | succ n ih =>
    simp only [Memory.loadRange] at h
    split at h
    · cases h
    · rename_i v hv
      split at h
      · cases h
      · rename_i vs hvs
        cases h
        obtain ⟨hl, hk⟩ := ih hvs
        refine ⟨by simp [hl], fun k hkn => ?_⟩
        cases k with
        | zero => simp [(Memory.load_ok.mp hv).2]
        | succ k => simpa [Nat.add_assoc, Nat.add_comm 1 k] using hk k (by omega)

/-- A range of cells with values inside the buffer is read. -/
theorem Memory.loadRange_of_values {cap : Nat} {m : Memory} {i n : Nat} (hc : i + n ≤ cap)
    (h : ∀ k, k < n → ∃ v, Memory.read m (i + k) = some v) :
    ∃ p, Memory.loadRange cap m i n = .ok p := by
  induction n generalizing i with
  | zero => exact ⟨[], rfl⟩
  | succ n ih =>
    obtain ⟨v, hv⟩ := h 0 (by omega)
    obtain ⟨p, hp⟩ := ih (i := i + 1) (by omega) fun k hk => by
      simpa [Nat.add_assoc, Nat.add_comm 1 k] using h (k + 1) (by omega)
    refine ⟨v :: p, ?_⟩
    have : Memory.load cap m i = .ok v := Memory.load_ok.mpr ⟨by omega, hv⟩
    simp [Memory.loadRange, this, hp]

end Sys2Proof.Machine
end

