-- ==== Sys2Proof/Laws/State.lean ====
section
/-! SUPPORT. One lemma per field per update of the state, and what a step can do. -/

namespace Sys2Proof.Machine

section updates
variable (s : State) (f : Framer) (st : Stat) (r : Result) (nbits w : Nat)

@[simp] theorem State.emit_params : (s.emit f st).params = s.params := rfl
@[simp] theorem State.emit_framer : (s.emit f st).framer = f := rfl
@[simp] theorem State.emit_resets : (s.emit f st).resets = s.resets := rfl
@[simp] theorem State.emit_pending : (s.emit f st).pending = s.pending := rfl
@[simp] theorem State.emit_stat : (s.emit f st).stat = s.stat ++ [st] := rfl
@[simp] theorem State.emit_sink : (s.emit f st).sink = s.sink ++ st.event.packets := rfl
@[simp] theorem State.emit_results : (s.emit f st).results = s.results := rfl

@[simp] theorem State.answer_params : (s.answer r).params = s.params := rfl
@[simp] theorem State.answer_framer : (s.answer r).framer = s.framer := rfl
@[simp] theorem State.answer_resets : (s.answer r).resets = s.resets := rfl
@[simp] theorem State.answer_pending : (s.answer r).pending = s.pending := rfl
@[simp] theorem State.answer_stat : (s.answer r).stat = s.stat := rfl
@[simp] theorem State.answer_sink : (s.answer r).sink = s.sink := rfl
@[simp] theorem State.answer_results : (s.answer r).results = s.results ++ [r] := rfl

@[simp] theorem State.withFetchWord_params : (s.withFetchWord nbits w).params = s.params := rfl
@[simp] theorem State.withFetchWord_framer : (s.withFetchWord nbits w).framer = s.framer := rfl
@[simp] theorem State.withFetchWord_resets : (s.withFetchWord nbits w).resets = s.resets := rfl
@[simp] theorem State.withFetchWord_pending :
    (s.withFetchWord nbits w).pending = .rx (tableBytes nbits w) :: s.pending := rfl
@[simp] theorem State.withFetchWord_stat : (s.withFetchWord nbits w).stat = s.stat := rfl
@[simp] theorem State.withFetchWord_sink : (s.withFetchWord nbits w).sink = s.sink := rfl
@[simp] theorem State.withFetchWord_results : (s.withFetchWord nbits w).results = s.results := rfl

@[simp] theorem State.initialise_params : s.initialise.params = s.params := rfl
@[simp] theorem State.initialise_framer :
    s.initialise.framer = Framer.initial s.params.cap s.resets := rfl
@[simp] theorem State.initialise_resets : s.initialise.resets = s.resets + 1 := rfl
@[simp] theorem State.initialise_pending : s.initialise.pending = s.pending := rfl
@[simp] theorem State.initialise_stat : s.initialise.stat = s.stat := rfl
@[simp] theorem State.initialise_sink : s.initialise.sink = s.sink := rfl
@[simp] theorem State.initialise_results : s.initialise.results = s.results := rfl

@[simp] theorem Framer.initial_filled (cap n : Nat) : (Framer.initial cap n).filled = 0#9 := rfl
@[simp] theorem Framer.stat_event (cap : Nat) (e : Event) : (Framer.stat cap f e).event = e := rfl
@[simp] theorem Framer.stat_ev (cap : Nat) (e : Event) : (Framer.stat cap f e).ev = e.ev := rfl
@[simp] theorem Framer.stat_ovf (cap : Nat) (e : Event) :
    (Framer.stat cap f e).ovf = Framer.ovf cap f := rfl

end updates

/-- Everything a step that goes on can be: an idle one, or one operation run to its end. -/
theorem step_next {s t : State} (h : step s = .next t) :
    (s.pending = [] ∧ t = s) ∨
    ∃ r rest i, s.pending = r :: rest ∧ decode r = .ok i ∧
      exec i { s with pending := rest } = .next t := by
  unfold step State.fetch at h
  split at h
  · rename_i hf
    split at hf
    · rename_i hp; cases h; exact .inl ⟨hp, rfl⟩
    · cases hf
  · rename_i r s' hf
    split at hf
    · cases hf
    · rename_i r' rest hp
      cases hf
      split at h
      · cases h
      · rename_i i hd; exact .inr ⟨r, rest, i, hp, hd, h⟩

end Sys2Proof.Machine
end

