-- ==== Sys2Proof/Laws/Framer.lean ====
section
/-! SUPPORT. The laws of the framer's shared operations: the views, one accepted byte, a fed list of
bytes (spec R24, R25, R80 to R92). -/

namespace Sys2Proof.Machine

/-- The declared length never wraps (R64). -/
@[simp] theorem declaredLength_toNat (len : Byte) : (declaredLength len).toNat = len.toNat + 3 := by
  have := len.isLt
  simp [declaredLength, Config.overhead, BitVec.toNat_add]
  omega

theorem Framer.expected_ok {cap : Nat} {f : Framer} {e : Nat} :
    Framer.expected cap f = .ok e ↔
      1 < cap ∧ ∃ len, Memory.read f.buf 1 = some len ∧ e = len.toNat + 3 := by
  unfold Framer.expected
  split
  · rename_i x hx
    constructor
    · intro h; cases h
    · rintro ⟨hc, len, hr, -⟩
      rw [Memory.load_ok.mpr ⟨hc, hr⟩] at hx; cases hx
  · rename_i len hl
    obtain ⟨hc, hr⟩ := Memory.load_ok.mp hl
    simp [hc, hr, eq_comm]

/-- What the phase is, where it is defined (R24). -/
theorem Framer.phase_ok {cap : Nat} {f : Framer} {ph : Phase} :
    Framer.phase cap f = .ok ph ↔
      (f.filled.toNat < 4 ∧ ph = .header) ∨
      (4 ≤ f.filled.toNat ∧ ∃ e, Framer.expected cap f = .ok e ∧
        ph = if e > cap then .overflow else .payload) := by
  unfold Framer.phase
  simp only [Config.hdr]
  split
  · have : ¬ 4 ≤ f.filled.toNat := by omega
    simp [*, eq_comm]
  · have : 4 ≤ f.filled.toNat := by omega
    split <;> simp [*, eq_comm]

theorem Framer.remaining_ok {cap : Nat} {f : Framer} {r : Nat} :
    Framer.remaining cap f = .ok r ↔
      ∃ e, Framer.expected cap f = .ok e ∧ f.filled.toNat < e ∧ r = e - f.filled.toNat := by
  unfold Framer.remaining
  split
  · simp [*]
  · rename_i e he
    split <;> simp [*, eq_comm]

/-- When the framer has a step, and in which phase (R80). -/
theorem Framer.ready_ok {cap : Nat} {f : Framer} {ph : Phase} :
    Framer.ready cap f = .ok ph ↔
      Framer.phase cap f = .ok ph ∧
        (4 ≤ f.filled.toNat → ∃ e, Framer.expected cap f = .ok e ∧ f.filled.toNat < e) := by
  unfold Framer.ready
  split
  · simp [*]
  · rename_i h
    rw [h]
    rcases Framer.phase_ok.mp h with ⟨hf, -⟩ | ⟨-, e, -, he⟩
    · have : ¬ 4 ≤ f.filled.toNat := by omega
      simp [this]
    · split at he <;> cases he
  · rename_i ph' hne h
    rw [h]
    have h4 : 4 ≤ f.filled.toNat := by
      rcases Framer.phase_ok.mp h with ⟨-, rfl⟩ | ⟨h4, -⟩
      · exact absurd rfl hne
      · exact h4
    split
    · rename_i x hx
      simp only [reduceCtorEq, Except.ok.injEq, false_iff, not_and, Classical.not_forall]
      rintro -
      refine ⟨h4, ?_⟩
      rintro ⟨e, he, hlt⟩
      rw [Framer.remaining_ok.mpr ⟨e, he, hlt, rfl⟩] at hx
      cases hx
    · rename_i r hr
      obtain ⟨e, he, hlt, -⟩ := Framer.remaining_ok.mp hr
      simp only [Except.ok.injEq, iff_self_and]
      exact fun _ _ => ⟨e, he, hlt⟩

theorem Framer.ovf_eq_true {cap : Nat} {f : Framer} :
    Framer.ovf cap f = true ↔ Framer.phase cap f = .ok .overflow := by
  unfold Framer.ovf
  split <;> simp_all

/-- Everything one accepted byte can do: where it is stored, and how the frame goes on or ends. -/
theorem Framer.accept_ok {cap : Nat} {f g : Framer} {b : Byte} {e : Event}
    (h : Framer.accept cap f b = .ok (g, e)) :
    ∃ ph, Framer.ready cap f = .ok ph ∧ f.writeIndex ph < cap ∧
      g.buf = Memory.write f.buf (f.writeIndex ph) b ∧
      ((f.filled.toNat + 1 < 4 ∧ (g, e) = Framer.goOn g.buf (f.filled.toNat + 1)) ∨
       (3 ≤ f.filled.toNat ∧ ∃ len, Memory.read g.buf 1 = some len ∧
        Framer.classify cap ph g.buf (f.filled.toNat + 1) (len.toNat + 3) = .ok (g, e))) := by
  unfold Framer.accept at h
  split at h
  · cases h
  · rename_i ph hph
    split at h
    · cases h
    · rename_i buf hst
      obtain ⟨hi, rfl⟩ := Memory.store_ok.mp hst
      simp only [Config.hdr] at h
      split at h
      · cases h
        exact ⟨ph, hph, hi, rfl, .inl ⟨‹_›, rfl⟩⟩
      · split at h
        · cases h
        · rename_i len hl
          rw [declaredLength_toNat] at h
          have hb : g.buf = Memory.write f.buf (f.writeIndex ph) b := by
            unfold Framer.classify Framer.complete at h
            simp only [Framer.goOn, Framer.endFrame] at h
            repeat' split at h
            all_goals first | (cases h; rfl) | cases h
          refine ⟨ph, hph, hi, hb, .inr ⟨by omega, len, ?_, ?_⟩⟩
          · rw [hb]; exact (Memory.load_ok.mp hl).2
          · rw [hb]; exact h

/-- One step of the framer on the machine changes its framer and its outputs alone. -/
theorem rxStep_ok {b : Byte} {s t : State} {e : Event} :
    rxStep b s = .ok (t, e) ↔
      ∃ f, Framer.accept s.params.cap s.framer b = .ok (f, e) ∧
        t = s.emit f (Framer.stat s.params.cap f e) := by
  unfold rxStep
  split
  · simp [*]
  · rename_i f e' h
    simp only [h, Except.ok.injEq, Prod.mk.injEq]
    constructor
    · rintro ⟨rfl, rfl⟩; exact ⟨f, ⟨rfl, rfl⟩, rfl⟩
    · rintro ⟨f', ⟨rfl, rfl⟩, rfl⟩; exact ⟨rfl, rfl⟩

@[simp] theorem feed_nil (s : State) : feed [] s = .ok (s, []) := rfl

theorem feed_cons_ok {b : Byte} {bs : List Byte} {s t : State} {es : List Event} :
    feed (b :: bs) s = .ok (t, es) ↔
      ∃ s₁ e es₁, rxStep b s = .ok (s₁, e) ∧ feed bs s₁ = .ok (t, es₁) ∧ es = e :: es₁ := by
  simp only [feed]
  split
  · simp [*]
  · rename_i s₁ e h
    split
    · rename_i x hx
      simp only [h, reduceCtorEq, false_iff]
      rintro ⟨s₂, e₂, es₂, h₁, h₂, -⟩
      cases h₁; rw [hx] at h₂; cases h₂
    · rename_i t' es' h'
      simp only [h, Except.ok.injEq, Prod.mk.injEq]
      constructor
      · rintro ⟨rfl, rfl⟩; exact ⟨s₁, e, es', ⟨rfl, rfl⟩, h', rfl⟩
      · rintro ⟨s₂, e₂, es₂, ⟨rfl, rfl⟩, h₂, rfl⟩
        rw [h'] at h₂; cases h₂; exact ⟨rfl, rfl⟩

/-- Feeding a concatenation is feeding one part after the other. -/
theorem feed_append_ok {bs cs : List Byte} {s t : State} {es : List Event} :
    feed (bs ++ cs) s = .ok (t, es) ↔
      ∃ s₁ es₁ es₂, feed bs s = .ok (s₁, es₁) ∧ feed cs s₁ = .ok (t, es₂) ∧ es = es₁ ++ es₂ := by
  induction bs generalizing s es with
  | nil => simp
  | cons b bs ih =>
    simp only [List.cons_append, feed_cons_ok, ih]
    constructor
    · rintro ⟨s₁, e, es₁, h₁, ⟨s₂, es₂, es₃, h₂, h₃, rfl⟩, rfl⟩
      exact ⟨s₂, e :: es₂, es₃, ⟨s₁, e, es₂, h₁, h₂, rfl⟩, h₃, rfl⟩
    · rintro ⟨s₂, es₂', es₃, ⟨s₁, e, es₂, h₁, h₂, rfl⟩, h₃, rfl⟩
      exact ⟨s₁, e, es₂ ++ es₃, h₁, ⟨s₂, es₂, es₃, h₂, h₃, rfl⟩, rfl⟩

/-- A fed list of bytes leaves the instance and the invocations alone, and shows one outcome a
byte. -/
theorem feed_frame {bs : List Byte} {s t : State} {es : List Event}
    (h : feed bs s = .ok (t, es)) :
    t.params = s.params ∧ t.resets = s.resets ∧ t.pending = s.pending ∧
      t.results = s.results ∧ es.length = bs.length ∧ t.sink = s.sink ++ es.flatMap Event.packets ∧
      ∃ new, t.stat = s.stat ++ new ∧ new.map Stat.event = es := by
  induction bs generalizing s es with
  | nil => cases h; simp
  | cons b bs ih =>
    obtain ⟨s₁, e, es₁, h₁, h₂, rfl⟩ := feed_cons_ok.mp h
    obtain ⟨f, -, rfl⟩ := rxStep_ok.mp h₁
    obtain ⟨hp, hz, hq, hr, hl, hs, new, hn, he⟩ := ih h₂
    refine ⟨hp, hz, hq, hr, by simp [hl], by simpa [List.flatMap_cons] using hs,
      Framer.stat s.params.cap f e :: new, by simpa using hn, by simp [he]⟩

end Sys2Proof.Machine
end

