-- ==== Sys2Proof/Laws/Accept.lean ====
section
/-! SUPPORT. What one byte does to a sound framer, once for all: the rows of R90, that one of them
always applies (R80), and that it leaves a sound framer (R23). -/

namespace Sys2Proof.Machine

theorem Framer.expected_of_read {cap : Nat} {f : Framer} {len : Byte} (hc : 1 < cap)
    (h : Memory.read f.buf 1 = some len) : Framer.expected cap f = .ok (len.toNat + 3) :=
  Framer.expected_ok.mpr ⟨hc, len, h, rfl⟩

/-- The phase of a sound framer. -/
theorem Framer.phase_of_len {cap : Nat} {f : Framer} {len : Byte} (hc : 1 < cap)
    (h4 : 4 ≤ f.filled.toNat) (h : Memory.read f.buf 1 = some len) :
    Framer.phase cap f = .ok (if len.toNat + 3 > cap then .overflow else .payload) :=
  Framer.phase_ok.mpr (.inr ⟨h4, _, Framer.expected_of_read hc h, rfl⟩)

theorem Framer.phase_header {cap : Nat} {f : Framer} (h : f.filled.toNat < 4) :
    Framer.phase cap f = .ok .header := Framer.phase_ok.mpr (.inl ⟨h, rfl⟩)

@[simp] theorem Framer.ovf_of_lt {cap : Nat} {f : Framer} (h : f.filled.toNat < 4) :
    Framer.ovf cap f = false := by simp [Framer.ovf, Framer.phase_header h]

theorem Framer.ovf_of_len {cap : Nat} {f : Framer} {len : Byte} (hc : 1 < cap)
    (h4 : 4 ≤ f.filled.toNat) (h : Memory.read f.buf 1 = some len) :
    Framer.ovf cap f = decide (cap < len.toNat + 3) := by
  unfold Framer.ovf
  rw [Framer.phase_of_len hc h4 h]
  by_cases hlt : cap < len.toNat + 3 <;> simp [hlt]

theorem Framer.live_of_lt {cap : Nat} {f : Framer} (h : f.filled.toNat < 4) :
    Framer.live cap f = f.filled.toNat := by simp [Framer.live, Framer.ovf_of_lt h]

theorem Framer.live_of_len {cap : Nat} {f : Framer} {len : Byte} (hc : 1 < cap)
    (h4 : 4 ≤ f.filled.toNat) (h : Memory.read f.buf 1 = some len) :
    Framer.live cap f = if cap < len.toNat + 3 then 4 else f.filled.toNat := by
  simp [Framer.live, Framer.ovf_of_len hc h4 h]

/-- What one byte does to a sound framer: the rows of R90. `g` is the framer after it, `e` the
outcome. -/
inductive AcceptCase (cap : Nat) (f : Framer) (b : Byte) (g : Framer) (e : Event) : Prop where
  | header (h : f.filled.toNat < 3) (hb : g.buf = Memory.write f.buf f.filled.toNat b)
      (hn : g.filled.toNat = f.filled.toNat + 1) (he : e = .pending)
  | runt (len : Byte) (h : f.filled.toNat = 3) (hl : Memory.read f.buf 1 = some len)
      (hc : len.toNat = 0)
      (hb : g.buf = Memory.write f.buf 3 b) (hn : g.filled.toNat = 0)
      (he : e = .discarded .runtPacket)
  | enter (len : Byte) (h : f.filled.toNat = 3) (hl : Memory.read f.buf 1 = some len)
      (hc : cap < len.toNat + 3) (hb : g.buf = Memory.write f.buf 3 b) (hn : g.filled.toNat = 4)
      (he : e = .pending)
  | collect (len : Byte) (h : 3 ≤ f.filled.toNat) (hl : Memory.read f.buf 1 = some len)
      (hc : len.toNat + 3 ≤ cap) (h' : f.filled.toNat + 1 < len.toNat + 3)
      (hb : g.buf = Memory.write f.buf f.filled.toNat b)
      (hn : g.filled.toNat = f.filled.toNat + 1) (he : e = .pending)
  | finish (len : Byte) (p : List Byte) (h : 3 ≤ f.filled.toNat)
      (hl : Memory.read f.buf 1 = some len)
      (hc : len.toNat + 3 ≤ cap) (h' : f.filled.toNat + 1 = len.toNat + 3)
      (hb : g.buf = Memory.write f.buf f.filled.toNat b) (hn : g.filled.toNat = 0)
      (hp : p.length = len.toNat + 3) (hr : ∀ k, k < p.length → p[k]? = Memory.read g.buf k)
      (he : e = verdict p)
  | drain (len : Byte) (h : 4 ≤ f.filled.toNat) (hl : Memory.read f.buf 1 = some len)
      (hc : cap < len.toNat + 3) (h' : f.filled.toNat + 1 < len.toNat + 3)
      (hb : g.buf = Memory.write f.buf 4 b)
      (hn : g.filled.toNat = f.filled.toNat + 1) (he : e = .pending)
  | drained (len : Byte) (h : 4 ≤ f.filled.toNat) (hl : Memory.read f.buf 1 = some len)
      (hc : cap < len.toNat + 3) (h' : f.filled.toNat + 1 = len.toNat + 3)
      (hb : g.buf = Memory.write f.buf 4 b) (hn : g.filled.toNat = 0)
      (he : e = .discarded .oversizedPacket)

theorem Framer.goOn_toNat {buf : Memory} {n : Nat} (h : n < 512) :
    (Framer.goOn buf n).1.filled.toNat = n := by
  simp [Framer.goOn, BitVec.toNat_ofNat]; omega

/-- A sound framer takes every byte (R80), in one of the ways of R90. -/
theorem Framer.accept_cases {cap : Nat} {f : Framer} (hcap : 5 ≤ cap) (hI : Framer.Inv cap f)
    (b : Byte) :
    ∃ g e, Framer.accept cap f b = .ok (g, e) ∧ AcceptCase cap f b g e := by
  by_cases h4 : f.filled.toNat < 4
  · have hready : Framer.ready cap f = .ok .header :=
      Framer.ready_ok.mpr ⟨Framer.phase_header h4, fun h => by omega⟩
    have hst : Memory.store cap f.buf f.filled.toNat b = .ok (Memory.write f.buf f.filled.toNat b) :=
      Memory.store_ok.mpr ⟨by omega, rfl⟩
    unfold Framer.accept
    simp only [hready, Framer.writeIndex, hst]
    by_cases h3 : f.filled.toNat < 3
    · rw [if_pos (by show f.filled.toNat + 1 < 4; omega)]
      exact ⟨_, _, rfl, .header h3 rfl (Framer.goOn_toNat (by omega)) rfl⟩
    · rw [if_neg (by show ¬ f.filled.toNat + 1 < 4; omega)]
      have h3 : f.filled.toNat = 3 := by omega
      obtain ⟨len, hl⟩ := hI.whole 1 (by omega)
      have hl' : Memory.load cap (Memory.write f.buf f.filled.toNat b) 1 = .ok len :=
        Memory.load_ok.mpr ⟨by omega, by rw [Memory.read_write_other (by omega), hl]⟩
      simp only [h3] at hl' ⊢
      simp only [hl', declaredLength_toNat, Framer.classify, true_and]
      by_cases h0 : len.toNat + 3 < 4
      · rw [if_pos h0]
        exact ⟨_, _, rfl, .runt len h3 hl (by omega) rfl rfl rfl⟩
      rw [if_neg h0]
      by_cases hc : len.toNat + 3 > cap
      · rw [if_pos hc]
        exact ⟨_, _, rfl, .enter len h3 hl hc rfl rfl rfl⟩
      rw [if_neg hc]
      by_cases he : 3 + 1 = len.toNat + 3
      · rw [if_pos he]
        obtain ⟨p, hp⟩ := Memory.loadRange_of_values (cap := cap)
          (m := Memory.write f.buf 3 b) (i := 0) (n := len.toNat + 3) (by omega) (by
            intro k hk
            rw [Memory.read_write]
            split
            · exact ⟨_, rfl⟩
            · simpa using hI.whole k (by omega))
        obtain ⟨hpl, hpk⟩ := Memory.loadRange_ok hp
        unfold Framer.complete
        rw [if_neg (by simp [hc])]
        simp only [hp]
        refine ⟨{ buf := Memory.write f.buf 3 b, filled := 0#9 }, verdict p, ?_, .finish len p (by omega) hl (by omega) (by omega) (by rw [h3]) rfl hpl
            (fun k hk => by simpa using hpk k (by omega)) rfl⟩
        unfold verdict
        split <;> rfl
      · rw [if_neg he]
        exact ⟨_, _, rfl, .collect len (by omega) hl (by omega) (by omega) (by rw [h3])
          (by rw [h3]; rfl) rfl⟩
  · have h4 : 4 ≤ f.filled.toNat := by omega
    obtain ⟨len, hl, h2, hlt⟩ := hI.tracked h4
    rw [declaredLength_toNat] at hlt
    have hlen := len.isLt
    have hready : Framer.ready cap f = .ok (if len.toNat + 3 > cap then .overflow else .payload) :=
      Framer.ready_ok.mpr ⟨Framer.phase_of_len (by omega) h4 hl,
        fun _ => ⟨_, Framer.expected_of_read (by omega) hl, hlt⟩⟩
    unfold Framer.accept
    by_cases hc : cap < len.toNat + 3
    · rw [hready, if_pos hc]
      have hst : Memory.store cap f.buf 4 b = .ok (Memory.write f.buf 4 b) :=
        Memory.store_ok.mpr ⟨by omega, rfl⟩
      simp only [Framer.writeIndex, hst]
      rw [if_neg (by show ¬ f.filled.toNat + 1 < 4; omega)]
      have hl' : Memory.load cap (Memory.write f.buf 4 b) 1 = .ok len :=
        Memory.load_ok.mpr ⟨by omega, by rw [Memory.read_write_other (by omega), hl]⟩
      simp only [hl', declaredLength_toNat, Framer.classify, reduceCtorEq, false_and, if_false]
      by_cases he : f.filled.toNat + 1 = len.toNat + 3
      · rw [if_pos he]
        exact ⟨_, _, rfl, .drained len h4 hl hc he rfl rfl rfl⟩
      · rw [if_neg he]
        exact ⟨_, _, rfl, .drain len h4 hl hc (by omega) rfl (Framer.goOn_toNat (by omega)) rfl⟩
    · rw [hready, if_neg hc]
      have hst : Memory.store cap f.buf f.filled.toNat b = .ok (Memory.write f.buf f.filled.toNat b) :=
        Memory.store_ok.mpr ⟨by omega, rfl⟩
      simp only [Framer.writeIndex, hst]
      rw [if_neg (by show ¬ f.filled.toNat + 1 < 4; omega)]
      have hl' : Memory.load cap (Memory.write f.buf f.filled.toNat b) 1 = .ok len :=
        Memory.load_ok.mpr ⟨by omega, by rw [Memory.read_write_other (by omega), hl]⟩
      simp only [hl', declaredLength_toNat, Framer.classify, reduceCtorEq, false_and, if_false]
      by_cases he : f.filled.toNat + 1 = len.toNat + 3
      · rw [if_pos he]
        obtain ⟨p, hp⟩ := Memory.loadRange_of_values (cap := cap)
          (m := Memory.write f.buf f.filled.toNat b) (i := 0) (n := len.toNat + 3) (by omega) (by
            intro k hk
            rw [Memory.read_write]
            split
            · exact ⟨_, rfl⟩
            · simpa using hI.whole k (by omega))
        obtain ⟨hpl, hpk⟩ := Memory.loadRange_ok hp
        unfold Framer.complete
        rw [if_neg (by simp [hc])]
        simp only [hp]
        refine ⟨{ buf := Memory.write f.buf f.filled.toNat b, filled := 0#9 }, verdict p, ?_, .finish len p (by omega) hl (by omega) (by omega) rfl rfl hpl
            (fun k hk => by simpa using hpk k (by omega)) rfl⟩
        unfold verdict
        split <;> rfl
      · rw [if_neg he]
        exact ⟨_, _, rfl, .collect len (by omega) hl (by omega) (by omega) rfl (Framer.goOn_toNat (by omega)) rfl⟩

/-- In every state, sound or not, a byte that is accepted is accepted in one of the ways of R90. -/
theorem Framer.accept_case {cap : Nat} {f g : Framer} {b : Byte} {e : Event}
    (h : Framer.accept cap f b = .ok (g, e)) : AcceptCase cap f b g e := by
  obtain ⟨ph, hr, hw, hb, ⟨h4, hg⟩ | ⟨h3, len, hl, hcl⟩⟩ := Framer.accept_ok h
  · obtain ⟨hp, -⟩ := Framer.ready_ok.mp hr
    obtain rfl : ph = .header := by
      rcases Framer.phase_ok.mp hp with ⟨-, rfl⟩ | ⟨h, -⟩
      · rfl
      · omega
    refine .header (by omega) hb ?_ (congrArg Prod.snd hg)
    rw [show g = _ from congrArg Prod.fst hg, Framer.goOn_toNat (by omega)]
  · obtain ⟨gb, gn⟩ := g
    have hlen := len.isLt
    have hl' : Memory.read f.buf 1 = some len := by
      rw [← hl, hb, Memory.read_write_other]
      cases ph <;> simp only [Framer.writeIndex, Config.overflowCell] <;> omega
    have hrun : Framer.classify cap ph gb (f.filled.toNat + 1) (len.toNat + 3) = .ok (⟨gb, gn⟩, e) →
        f.filled.toNat = 3 ∧ ph = .header ∨
        4 ≤ f.filled.toNat ∧ f.filled.toNat < len.toNat + 3 ∧
          ph = if len.toNat + 3 > cap then .overflow else .payload := by
      intro _
      obtain ⟨hp, hlt⟩ := Framer.ready_ok.mp hr
      rcases Framer.phase_ok.mp hp with ⟨h, rfl⟩ | ⟨h4, e', he, hph⟩
      · exact .inl ⟨by omega, rfl⟩
      · obtain ⟨-, l, hl2, rfl⟩ := Framer.expected_ok.mp he
        obtain rfl := Option.some.inj (hl'.symm.trans hl2)
        obtain ⟨e', he', hlt'⟩ := hlt h4
        rw [he] at he'
        obtain rfl := Except.ok.inj he'
        exact .inr ⟨h4, hlt', hph⟩
    have hfin : len.toNat + 3 ≤ cap → f.filled.toNat + 1 = len.toNat + 3 → ph ≠ .overflow →
        Framer.complete cap ph gb (len.toNat + 3) = .ok (⟨gb, gn⟩, e) →
        gb = Memory.write f.buf f.filled.toNat b →
        AcceptCase cap f b ⟨gb, gn⟩ e := by
      intro hc hn hph hcomp hb
      unfold Framer.complete at hcomp
      rw [if_neg (by rintro (h | h); exacts [hph h, by omega])] at hcomp
      split at hcomp
      · cases hcomp
      · rename_i p hp
        obtain ⟨hpl, hpk⟩ := Memory.loadRange_ok hp
        refine .finish len p h3 hl' hc hn hb ?_ hpl (fun k hk => by simpa using hpk k (by omega)) ?_
        · split at hcomp <;> cases hcomp <;> rfl
        · unfold verdict
          split at hcomp <;> cases hcomp <;> simp [*]
    rcases hrun hcl with ⟨h3', rfl⟩ | ⟨h4, hlt, hph⟩
    · unfold Framer.classify at hcl
      have hb3 : gb = Memory.write f.buf 3 b := by rw [← h3']; exact hb
      split at hcl
      · cases hcl; exact .runt len h3' hl' (by simp_all [Config.hdr]; omega) hb3 rfl rfl
      · split at hcl
        · cases hcl; exact .enter len h3' hl' (by simp_all) hb3 rfl rfl
        · split at hcl
          · exact hfin (by simp_all) ‹_› (by simp) hcl hb
          · cases hcl
            refine .collect len h3 hl' (by simp_all) (by simp_all [Config.hdr]; omega) hb ?_ rfl
            exact Framer.goOn_toNat (buf := gb) (by omega)
    · unfold Framer.classify at hcl
      have hne : ph ≠ .header := by rw [hph]; split <;> simp
      rw [if_neg (by simp [hne]), if_neg (by simp [hne])] at hcl
      by_cases hc : len.toNat + 3 > cap
      · rw [if_pos hc] at hph
        subst hph
        split at hcl
        · cases hcl; exact .drained len h4 hl' hc ‹_› hb rfl rfl
        · cases hcl
          exact .drain len h4 hl' hc (by omega) hb (Framer.goOn_toNat (buf := gb) (by omega)) rfl
      · rw [if_neg hc] at hph
        subst hph
        split at hcl
        · exact hfin (by omega) ‹_› (by simp) hcl hb
        · cases hcl
          exact .collect len h3 hl' (by omega) (by omega) hb
            (Framer.goOn_toNat (buf := gb) (by omega)) rfl

/-- One byte keeps a framer sound (R23). -/
theorem AcceptCase.inv {cap : Nat} {f g : Framer} {b : Byte} {e : Event} (hcap : 5 ≤ cap)
    (hI : Framer.Inv cap f) (h : AcceptCase cap f b g e) : Framer.Inv cap g := by
  have key : ∀ w, g.buf = Memory.write f.buf w b → w < cap →
      (4 ≤ g.filled.toNat → ∃ len, Memory.read f.buf 1 = some len ∧ w ≠ 1 ∧ 2 ≤ len.toNat ∧
        g.filled.toNat < len.toNat + 3) → Framer.Inv cap g := by
    intro w hb hw ht
    refine ⟨hb ▸ Memory.wf_write hI.canonical, hb ▸ Memory.inside_write hI.inside hw, fun h => ?_,
      fun i hi => ?_⟩
    · obtain ⟨len, hl, hne, h2, hlt⟩ := ht h
      exact ⟨len, by rw [hb, Memory.read_write_other hne, hl], h2, by rwa [declaredLength_toNat]⟩
    · rw [hb, Memory.read_write]
      split
      · exact ⟨_, rfl⟩
      · exact hI.whole i hi
  cases h with
  | header h hb hn he => exact key _ hb (by omega) (fun h => by omega)
  | runt len h hl hc hb hn he => exact key _ hb (by omega) (fun h => by omega)
  | enter len h hl hc hb hn he =>
    exact key _ hb (by omega) (fun _ => ⟨len, hl, by omega, by omega, by omega⟩)
  | collect len h hl hc h' hb hn he =>
    exact key _ hb (by omega) (fun _ => ⟨len, hl, by omega, by omega, by omega⟩)
  | finish len p h hl hc h' hb hn hp hr he => exact key _ hb (by omega) (fun h => by omega)
  | drain len h hl hc h' hb hn he =>
    exact key _ hb (by omega) (fun _ => ⟨len, hl, by omega, by omega, by omega⟩)
  | drained len h hl hc h' hb hn he => exact key _ hb (by omega) (fun h => by omega)

/-- RESET leaves a sound framer on every instance. -/
theorem Framer.inv_initial (cap n : Nat) : Framer.Inv cap (Framer.initial cap n) where
  canonical := Memory.wf_fill _ _ _
  inside := fun c hc => by have := Memory.mem_fill hc; omega
  tracked := fun h => absurd h (by show ¬ 4 ≤ (0#9).toNat; decide)
  whole := fun i hi => ⟨_, by
    show Memory.read (Memory.fill _ 0 cap) i = _
    rw [Memory.read_fill, if_pos (by omega)]⟩

end Sys2Proof.Machine
end

