-- ==== Sys2Proof/Laws/Decode.lean ====
section
/-! SUPPORT. What the packet decoder reads, the bytes of a word, and the port an invocation that
decodes was made at. -/

namespace Sys2Proof

/-- A payload that fits the length byte is declared by it. -/
theorem lengthByte_toNat {p : List Byte} (h : p.length ≤ 255) :
    (BitVec.ofNat 8 p.length).toNat = p.length := by
  simp [BitVec.toNat_ofNat]; omega

/-- The packet decoder reads exactly the bytes of a packet (R60, R73). -/
theorem decodePkt_eq_some {l : List Byte} {ty c : Byte} {p : List Byte} :
    decodePkt l = some (ty, p, c) ↔ p.length ≤ 255 ∧ l = encodePkt ty p c := by
  unfold encodePkt
  match l with
  | [] => simp [decodePkt]
  | [a] => simp [decodePkt]
  | a :: n :: body =>
    have := n.isLt
    simp only [decodePkt]
    constructor
    · intro h
      split at h
      · cases h
        have h1 : (body.take n.toNat).length = n.toNat := by simp; omega
        refine ⟨by omega, ?_⟩
        rw [h1]
        simp only [BitVec.ofNat_toNat, BitVec.setWidth_eq, List.cons.injEq, true_and]
        have : body.drop n.toNat = [(body.drop n.toNat).headD 0] := by
          match hd : body.drop n.toNat with
          | [] => have := congrArg List.length hd; simp at this; omega
          | [x] => rfl
          | x :: y :: z => have := congrArg List.length hd; simp at this; omega
        conv_lhs => rw [← List.take_append_drop n.toNat body, this]
      · cases h
    · rintro ⟨hp, h⟩
      cases h
      simp [lengthByte_toNat hp]

/-- Bytes at `P_RX` that decode are one byte or one packet. -/
theorem decode_rx_ok {data : List Byte} {i : Instr} (h : decode (.rx data) = .ok i) :
    (∃ b, data = [b] ∧ i = .rxByte b) ∨
    ∃ ty p c, data = encodePkt ty p c ∧ p.length ≤ 255 ∧ i = .pkt ty p c := by
  unfold decode at h
  split at h
  case h_2 heq => cases heq; cases h; exact .inl ⟨_, rfl, rfl⟩
  case h_3 heq =>
    cases heq
    split at h
    · rename_i hp
      cases h
      obtain ⟨h1, h2⟩ := decodePkt_eq_some.mp hp
      exact .inr ⟨_, _, _, h2, h1, rfl⟩
    · cases h
  all_goals simp_all

/-- An invocation that decodes was made at the port of its instruction (R68). -/
theorem decode_port {r : Request} {i : Instr} (h : decode r = .ok i) : r.port = i.port := by
  match r with
  | .rst => cases h; rfl
  | .rx data =>
    rcases decode_rx_ok h with ⟨b, -, rfl⟩ | ⟨ty, p, c, -, -, rfl⟩ <;> rfl
  | .poll t => cases h; rfl
  | .csum bytes count =>
    simp only [decode] at h
    split at h <;> cases h; rfl
  | .verify p => cases h; rfl
  | .ser [] => cases h
  | .ser (ty :: payload) =>
    simp only [decode] at h
    split at h <;> cases h; rfl
  | .build => cases h; rfl

theorem wordBytes_length (w i n : Nat) : (wordBytes w i n).length = n := by
  induction n generalizing i <;> simp [wordBytes, *]

theorem wordBytes_getElem? {w n k : Nat} (i : Nat) (h : k < n) :
    (wordBytes w i n)[k]? = some (wordByte w (i + k)) := by
  induction n generalizing i k with
  | zero => omega
  | succ n ih =>
    cases k with
    | zero => simp [wordBytes]
    | succ k =>
      simp only [wordBytes, List.getElem?_cons_succ]
      rw [ih _ (by omega)]
      congr 2; omega

theorem wordByte_toNat (w i : Nat) : (wordByte w i).toNat = w / 2 ^ (8 * i) % 256 := by
  simp [wordByte, BitVec.toNat_ofNat, Nat.shiftRight_eq_div_pow]

end Sys2Proof
end

