-- ==== Sys2Proof/Laws/Encoder.lean ====
section
/-! SUPPORT. What VERIFY compares, and the packet SERIALIZE lays out (spec R121, R130). -/

namespace Sys2Proof.Machine

/-- When VERIFY answers true, over any sequence of bytes. -/
theorem verify_eq_true {p : List Byte} :
    verify p = true ↔ ∃ len, p[1]? = some len ∧ len.toNat + 3 ≤ p.length ∧
      p[len.toNat + 2]? = some (checksum p (len.toNat + 2)) := by
  match p with
  | [] => simp [verify]
  | [a] => simp [verify]
  | a :: l :: body => simp [verify_cons]

/-- The packet of SERIALIZE, its checksum as a negated sum. -/
theorem serialize_eq (ty : Byte) (p : List Byte) :
    serialize ty p =
      encodePkt ty p (-(ty + (BitVec.ofNat 8 p.length + sumBytes 0#8 p))) := by
  simp only [serialize, encodePkt, checksum_eq_neg]
  rw [List.take_of_length_le (by simp), sumBytes_cons, sumBytes_cons]; rfl

/-- A request's payload has the declared length (R131, R137). -/
theorem requestPayload_length {p : Params} (h : p.reqLead.length ≤ p.reqLen.toNat) :
    (requestPayload p).length = p.reqLen.toNat := by
  simp [requestPayload]; omega

end Sys2Proof.Machine
end

