-- ==== Sys2Proof/Laws/PerInstr.lean ====
section
/-! SUPPORT. The family `PortOf`: an invocation that decodes to an instruction was made at the port
that selects it (R68). -/

/-- An invocation that decodes to `i` was made at `i`'s port, the "select" key of its row (R68). -/
def Sys2Proof.Laws.PortOf.Statement (i : Sys2Proof.Instr) : Prop :=
  ∀ r : Sys2Proof.Request, Sys2Proof.decode r = .ok i → r.port = i.port

namespace Sys2Proof.Laws.PortOf

theorem reset : Statement .reset := fun _ h => decode_port h
theorem rxByte (b : Byte) : Statement (.rxByte b) := fun _ h => decode_port h
theorem poll (t : Transport) : Statement (.poll t) := fun _ h => decode_port h
theorem checksum (bytes : List Byte) (count : Nat) : Statement (.checksum bytes count) :=
  fun _ h => decode_port h
theorem verify (p : List Byte) : Statement (.verify p) := fun _ h => decode_port h
theorem serialize (ty : Byte) (payload : List Byte) : Statement (.serialize ty payload) :=
  fun _ h => decode_port h
theorem buildRequest : Statement .buildRequest := fun _ h => decode_port h
theorem pkt (ty : Byte) (payload : List Byte) (csum : Byte) : Statement (.pkt ty payload csum) :=
  fun _ h => decode_port h

end Sys2Proof.Laws.PortOf
end

