-- ==== Sys2Proof/Laws/Poll.lean ====
section
/-! SUPPORT. What a step and a list of bytes do from a sound state, the size of a POLL's next request,
and everything the loop of POLL can do (spec R80, R94, R95, R177). -/

namespace Sys2Proof.Machine

/-- RX_BYTE goes on exactly when its step does. -/
theorem exec_rxByte_next {s t : State} {b : Byte} :
    exec (.rxByte b) s = .next t ↔ ∃ u e, rxStep b s = .ok (u, e) ∧ t = u.answer (.event e) := by
  simp only [exec, execRxByte]
  split
  · simp [*]
  · rename_i u e h; simp [h, eq_comm]

/-- A sound state takes every byte, and stays sound. -/
theorem rxStep_total {s : State} (hI : s.Inv) (b : Byte) :
    ∃ t e, rxStep b s = .ok (t, e) ∧ t.Inv := by
  obtain ⟨g, e, h, hc⟩ := Framer.accept_cases hI.instanceOk.1 hI.framerOk b
  exact ⟨_, _, rxStep_ok.mpr ⟨g, h, rfl⟩, hI.instanceOk,
    AcceptCase.inv hI.instanceOk.1 hI.framerOk hc⟩

/-- A sound state takes every list of bytes, and stays sound. -/
theorem feed_total {s : State} (hI : s.Inv) (bs : List Byte) :
    ∃ t es, feed bs s = .ok (t, es) ∧ t.Inv := by
  induction bs generalizing s with
  | nil => exact ⟨_, _, rfl, hI⟩
  | cons b bs ih =>
    obtain ⟨s₁, e, h, h₁⟩ := rxStep_total hI b
    obtain ⟨t, es, h', h₂⟩ := ih h₁
    exact ⟨t, e :: es, feed_cons_ok.mpr ⟨_, _, _, h, h', rfl⟩, h₂⟩

/-- The request of a POLL in a sound state: at least one byte, and by phase (R94, R95). -/
theorem Framer.request_total {s : State} (hI : s.Inv) {avail : Nat} (ha : 0 < avail) :
    ∃ req, Framer.request s.params.cap s.framer avail = .ok req ∧ 0 < req ∧ req ≤ avail ∧
      (s.count < 4 → req = min avail (4 - s.count)) ∧
      ∀ len, 4 ≤ s.count → s.cell 1 = some len →
        req = if s.params.cap < len.toNat + 3 then
          min (min avail (len.toNat + 3 - s.count)) (s.params.cap - 4)
        else min avail (len.toNat + 3 - s.count) := by
  have hcap := hI.instanceOk.1
  simp only [Config.minCap] at hcap
  simp only [State.count, State.cell]
  by_cases h4 : s.framer.filled.toNat < 4
  · refine ⟨min avail (4 - s.framer.filled.toNat), ?_, by omega, by omega, fun _ => rfl,
      fun _ h => by omega⟩
    simp [Framer.request, Framer.phase_header h4]
  · have h4 : 4 ≤ s.framer.filled.toNat := by omega
    obtain ⟨l, hl, h2, hlt⟩ := hI.framerOk.tracked h4
    rw [declaredLength_toNat] at hlt
    have hr : Framer.remaining s.params.cap s.framer =
        .ok (l.toNat + 3 - s.framer.filled.toNat) :=
      Framer.remaining_ok.mpr ⟨_, Framer.expected_of_read (by omega) hl, hlt, rfl⟩
    have hph := Framer.phase_of_len (cap := s.params.cap) (by omega) h4 hl
    refine ⟨if s.params.cap < l.toNat + 3 then
        min (min avail (l.toNat + 3 - s.framer.filled.toNat)) (s.params.cap - 4)
      else min avail (l.toNat + 3 - s.framer.filled.toNat), ?_, ?_, ?_, fun _ => by omega, ?_⟩
    · by_cases hc : l.toNat + 3 > s.params.cap <;> simp [Framer.request, hph, hr, hc]
    · split <;> omega
    · split <;> omega
    · intro len _ h
      rw [Option.some.inj (hl.symm.trans h)]

theorem Transport.chunk_length_le (t : Transport) (m : Nat) : (Transport.chunk t m).length ≤ m := by
  simp [Transport.chunk, Transport.grant]

theorem Transport.chunk_length (t : Transport) (m : Nat) :
    (Transport.chunk t m).length = min (min m (t.limits.headD m)) t.stream.length := by
  simp [Transport.chunk, Transport.grant]

/-- Everything the loop of POLL does from a sound state: it feeds a prefix of the transport's stream,
as long as its reads answered, and lists the outcomes other than Pending. A transport that bounds no
read and has the bytes it announced hands them all over. -/
theorem pollLoop_total {fuel avail : Nat} {t : Transport} {s : State} (hI : s.Inv)
    (ha : avail ≤ fuel) :
    ∃ u calls es, pollLoop fuel avail t s = .ok (u, calls, nonPending es) ∧
      feed (t.stream.take (calls.map ReadCall.k).sum) s = .ok (u, es) ∧
      (∀ c ∈ calls, 0 < c.req ∧ c.k ≤ c.req) ∧ (∀ c ∈ calls.dropLast, 0 < c.k) ∧
      (calls.map ReadCall.k).sum ≤ avail ∧
      ((calls.map ReadCall.k).sum = avail ∨ ∃ c, calls.getLast? = some c ∧ c.k = 0) ∧
      (t.limits = [] → avail ≤ t.stream.length → (calls.map ReadCall.k).sum = avail) := by
  induction fuel generalizing avail t s with
  | zero => exact ⟨s, [], [], rfl, rfl, by simp, by simp, by simp, by simp; omega, by simp; omega⟩
  | succ fuel ih =>
    by_cases h0 : avail = 0
    · exact ⟨s, [], [], by simp [pollLoop, h0, nonPending], rfl, by simp, by simp, by simp, by simp [h0],
        by simp [h0]⟩
    · obtain ⟨req, hreq, hpos, hle, -⟩ := Framer.request_total hI (avail := avail) (by omega)
      by_cases hk : (Transport.chunk t req).length = 0
      · exact ⟨s, [⟨req, 0⟩], [], by simp [pollLoop, h0, hreq, hk, nonPending], by simp, by simp [hpos],
          by simp, by simp, by simp, fun hl hs => by
            have hc := Transport.chunk_length t req
            rw [hl, List.headD_nil, Nat.min_self, Nat.min_eq_left (by omega)] at hc
            omega⟩
      · obtain ⟨s₁, es, hf, hI₁⟩ := feed_total hI (Transport.chunk t req)
        have hcl := Transport.chunk_length_le t req
        obtain ⟨u, calls, es₂, h1, h2, h4, h5, h6, h7, h8⟩ := ih
          (avail := avail - (Transport.chunk t req).length) (t := Transport.after t req) hI₁ (by omega)
        refine ⟨u, ⟨req, (Transport.chunk t req).length⟩ :: calls, es ++ es₂, ?_, ?_, ?_, ?_, ?_, ?_,
          fun hl hs => ?_⟩
        · simp [pollLoop, h0, hreq, hk, hf, h1, nonPending]
        · have : t.stream.take ((Transport.chunk t req).length + (calls.map ReadCall.k).sum) =
              Transport.chunk t req ++
                (Transport.after t req).stream.take (calls.map ReadCall.k).sum := by
            simp only [Transport.chunk, Transport.after, List.length_take]
            rw [List.take_add]
            by_cases hg : Transport.grant t req ≤ t.stream.length
            · rw [Nat.min_eq_left hg]
            · have : t.stream.length ≤ Transport.grant t req := by omega
              rw [Nat.min_eq_right this, List.take_of_length_le this]
              simp [List.drop_eq_nil_of_le this]
          simp only [List.map_cons, List.sum_cons, this]
          exact feed_append_ok.mpr ⟨_, _, _, hf, h2, rfl⟩
        · simp only [List.mem_cons, forall_eq_or_imp]
          exact ⟨⟨hpos, hcl⟩, h4⟩
        · cases calls with
          | nil => simp
          | cons c cs =>
            simp only [List.dropLast_cons_cons, List.mem_cons]
            rintro c' (rfl | hc')
            exacts [Nat.pos_of_ne_zero hk, h5 c' hc']
        · simp; omega
        · rcases h7 with h7 | ⟨c, hc, hz⟩
          · left; simp; omega
          · right
            refine ⟨c, ?_, hz⟩
            cases calls with
            | nil => simp at hc
            | cons c' cs => simpa [List.getLast?_cons_cons] using hc
        · have hg : Transport.grant t req = req := by simp [Transport.grant, hl]
          have hc := Transport.chunk_length t req
          rw [hl, List.headD_nil, Nat.min_self, Nat.min_eq_left (by omega)] at hc
          have := h8 (by simp [Transport.after, hl])
            (by simp only [Transport.after, hg, List.length_drop]; omega)
          simp only [List.map_cons, List.sum_cons, this]
          exact Nat.add_sub_cancel' (hcl.trans hle)

end Sys2Proof.Machine
end

