-- ==== Sys2Proof/Tests/Slice0.lean ====
section
/-! SUPPORT. The model's own tests: the well-formedness smoke, decoding, one step per operation with
results from spec/95_test_vectors.md, and for every statement with hypotheses a witness that meets
them. -/

namespace Sys2Proof.Tests

open Sys2Proof.Machine

/-! ## Helpers -/

/-- An instance of capacity `cap` with the template of vector E12, its buffer holding `bs` and zeros
after it, its count `n`. -/
def machine (cap : Nat) (bs : List Byte) (n : Nat) : State where
  params  := { cap := cap, reqType := 0x10#8, reqLen := 0x01#8, reqLead := [0xAA#8] }
  framer  := { buf := Memory.fill (fun i => bs.getD i 0x00#8) 0 cap, filled := BitVec.ofNat 9 n }
  resets  := 1
  pending := []
  stat    := []
  sink    := []
  results := []

/-- A frame in progress: the bytes so far, and as many counted. -/
def midFrame (cap : Nat) (bs : List Byte) : State := machine cap bs bs.length

/-- An oversized frame being drained: its header in the buffer, `n` bytes counted. -/
def draining (len : Byte) (n : Nat) : State := machine 5 [0x71#8, len, 0x09#8, 0x09#8] n

/-- When such a machine is sound: R5, and R23 (b) of its count and its length byte. -/
abbrev fits (cap : Nat) (bs : List Byte) (n : Nat) : Prop :=
  5 ≤ cap ∧ n < 512 ∧ (n < 4 ∨ 2 ≤ (bs.getD 1 0x00#8).toNat ∧ n < (bs.getD 1 0x00#8).toNat + 3)

theorem inv_of_fits {cap : Nat} {bs : List Byte} {n : Nat} (h : fits cap bs n) :
    (machine cap bs n).Inv := by
  obtain ⟨hc, hn, h⟩ := h
  have hread : ∀ i, i < cap →
      Memory.read (machine cap bs n).framer.buf i = some (bs.getD i 0x00#8) := fun i hi => by
    show Memory.read (Memory.fill _ 0 cap) i = _
    rw [Memory.read_fill, if_pos (by omega)]
  have hfill : (machine cap bs n).framer.filled.toNat = n := by
    show (BitVec.ofNat 9 n).toNat = n
    rw [BitVec.toNat_ofNat]; omega
  refine ⟨⟨hc, le_refl 1⟩, Memory.wf_fill _ _ _,
    fun c hm => by have := Memory.mem_fill hm; show c.1 < cap; omega, fun h4 => ?_,
    fun i hi => ⟨_, hread i hi⟩⟩
  change 4 ≤ _ at h4
  refine ⟨_, hread 1 (by omega), ?_, ?_⟩
  · omega
  · rw [declaredLength_toNat]; omega

/-- Whether an outcome is a next state with a property. -/
def nextWith (o : Host.Outcome State Fault Refusal) (p : State → Bool) : Bool :=
  match o with
  | .next t => p t
  | .fault _ => false
  | .refused _ => false

theorem next_of_check {o : Host.Outcome State Fault Refusal} {P : State → Prop} [DecidablePred P]
    (h : nextWith o (fun t => decide (P t)) = true) : ∃ t, o = .next t ∧ P t := by
  cases o with
  | next t => exact ⟨t, rfl, of_decide_eq_true h⟩
  | fault x => cases h
  | refused x => cases h

/-- A transport that has `bs` ready and reads as the request says. -/
def ready (bs : List Byte) : Transport := { avail := some bs.length, stream := bs, limits := [] }

/-! ## Well-formedness: an ill-formed term for each check -/

theorem test_wf_checksum_count : WellFormed (.checksum [0x01#8] 2) = false := by decide
theorem test_wf_serialize_length : WellFormed (.serialize 0x71#8 (List.replicate 256 0#8)) = false := by
  rw [WellFormed, List.length_replicate]; rfl
theorem test_wf_pkt_length : WellFormed (.pkt 0x71#8 (List.replicate 256 0#8) 0#8) = false := by
  rw [WellFormed, List.length_replicate]; rfl

/-! ## Decoding: each row at its port (R68), the packet of R60 and R61 -/

theorem test_decode_reset : decode .rst = .ok .reset := by decide
theorem test_decode_rx_byte : decode (.rx [0b01000101#8]) = .ok (.rxByte 0x45#8) := by decide
theorem test_decode_poll : decode (.poll (ready [0x10#8])) = .ok (.poll (ready [0x10#8])) := by decide
theorem test_decode_checksum : decode (.csum [0x10#8, 0x01#8] 2) = .ok (.checksum [0x10#8, 0x01#8] 2) := by
  decide
theorem test_decode_verify : decode (.verify [0x71#8]) = .ok (.verify [0x71#8]) := by decide
theorem test_decode_serialize : decode (.ser [0x10#8, 0xAA#8]) = .ok (.serialize 0x10#8 [0xAA#8]) := by
  decide
theorem test_decode_build_request : decode .build = .ok .buildRequest := by decide
/-- R61: `TYPE` 10 in bits 7:0, `LEN` 02 in 15:8, payload 05 and 06 in 31:16, `CSUM` in 39:32. -/
theorem test_decode_pkt :
    decodeTableWord 40 0b1101001100000110000001010000001000010000 =
      some (.pkt 0x10#8 [0x05#8, 0x06#8] 0xD3#8) := by decide
theorem test_decode_short_word : decodeTableWord 8 0b01000101 = some (.rxByte 0x45#8) := by decide
theorem test_decode_rejects :
    decode (.rx [0x10#8, 0x01#8, 0xAA#8]) = .error .notAPacket ∧ decode (.rx []) = .error .notAPacket ∧
    decode (.csum [0x01#8] 2) = .error .countBeyondData ∧ decode (.ser []) = .error .noTypeByte := by
  decide

/-! ## One step each (results from 95_test_vectors.md) -/

/-- P6: RESET in mid-frame. -/
theorem test_reset_drops_the_frame :
    nextWith (exec .reset (midFrame 258 [0x31#8, 0x03#8, 0x01#8, 0x02#8, 0x03#8]))
      (fun t => t.count == 0 && t.results == [.done]) = true := by decide
/-- F1, fourth byte: delivered in the Header phase. -/
theorem test_rx_byte_delivers :
    nextWith (exec (.rxByte 0x45#8) (midFrame 258 [0x10#8, 0x01#8, 0xAA#8]))
      (fun t => t.count == 0 && t.sink == [[0x10#8, 0x01#8, 0xAA#8, 0x45#8]] &&
        t.stat.map Stat.ev == [1#3]) = true := by decide
/-- F5, fifth byte: written to cell 4 with the count at `CAP`. -/
theorem test_rx_byte_drains :
    nextWith (exec (.rxByte 0x09#8) (midFrame 5 [0x01#8, 0x03#8, 0x09#8, 0x09#8]))
      (fun t => t.count == 5 && t.cell 4 == some 0x09#8 && t.stat.map Stat.ovf == [true]) = true := by
  decide
/-- P2: four packets in one POLL, with the reads 4, 4, 2, 4, 2, 4. -/
theorem test_poll_drains_four_packets :
    nextWith (exec (.poll (ready ([0x10#8, 0x01#8, 0xAA#8, 0x45#8] ++
        [0x31#8, 0x03#8, 0x01#8, 0x02#8, 0x03#8, 0xC6#8] ++
        [0x31#8, 0x03#8, 0x01#8, 0xFD#8, 0x03#8, 0xC6#8] ++
        [0x10#8, 0x01#8, 0xAA#8, 0x45#8]))) (midFrame 258 []))
      (fun t => t.results == [.poll [⟨4, 4⟩, ⟨4, 4⟩, ⟨2, 2⟩, ⟨4, 4⟩, ⟨2, 2⟩, ⟨4, 4⟩]
        [.delivered [0x10#8, 0x01#8, 0xAA#8, 0x45#8],
         .delivered [0x31#8, 0x03#8, 0x01#8, 0x02#8, 0x03#8, 0xC6#8],
         .discarded .checksumMismatch,
         .delivered [0x10#8, 0x01#8, 0xAA#8, 0x45#8]]]) = true := by decide
/-- F7: an aborted poll reads nothing. -/
theorem test_poll_aborts :
    nextWith (exec (.poll ⟨none, [], []⟩) (midFrame 258 [0x31#8, 0x03#8]))
      (fun t => t.count == 2 && t.results == [.poll [] [.aborted .transportUnavailable]]) = true := by
  decide
/-- V: the sum that wraps to its own complement, and a count below the length. -/
theorem test_checksum_vectors :
    checksum [0x80#8, 0x80#8, 0x80#8] 3 = 0x80#8 ∧
    checksum [0x10#8, 0x01#8, 0xAA#8, 0x45#8] 3 = 0x45#8 := by decide
theorem test_checksum_answers :
    nextWith (exec (.checksum [0x71#8, 0x6C#8, 0x01#8, 0x10#8] 4) (midFrame 258 []))
      (fun t => t.results == [.byte 0x12#8]) = true := by decide
/-- V: a trailing byte is ignored, a short packet is not. -/
theorem test_verify_vectors :
    verify [0x10#8, 0x01#8, 0xAA#8, 0x45#8, 0x99#8] = true ∧
    verify [0x10#8, 0x02#8, 0xAA#8, 0x45#8] = false ∧ verify [] = false := by decide
theorem test_verify_answers :
    nextWith (exec (.verify [0x71#8, 0x00#8, 0x8F#8]) (midFrame 258 []))
      (fun t => t.results == [.bool true]) = true := by decide
/-- E2, E4. -/
theorem test_serialize_answers :
    nextWith (exec (.serialize 0x31#8 [0x01#8, 0x02#8, 0x03#8]) (midFrame 258 []))
      (fun t => t.results == [.bytes [0x31#8, 0x03#8, 0x01#8, 0x02#8, 0x03#8, 0xC6#8]]) = true := by
  decide
theorem test_serialize_empty : serialize 0x71#8 [] = [0x71#8, 0x00#8, 0x8F#8] := by decide
/-- E12, E13. -/
theorem test_build_request_answers :
    nextWith (exec .buildRequest (midFrame 258 []))
      (fun t => t.results == [.bytes [0x10#8, 0x01#8, 0xAA#8, 0x45#8]]) = true := by decide
theorem test_build_request_fills :
    buildRequest { cap := 258, reqType := 0x20#8, reqLen := 0x02#8, reqLead := [] } =
      [0x20#8, 0x02#8, 0x00#8, 0x00#8, 0xDE#8] := by decide
/-- F2: a packet at `P_RX`. -/
theorem test_pkt_is_delivered :
    nextWith (exec (.pkt 0x20#8 [0x05#8, 0x06#8] 0xD3#8) (midFrame 258 []))
      (fun t => t.results == [.events [.pending, .pending, .pending, .pending,
        .delivered [0x20#8, 0x02#8, 0x05#8, 0x06#8, 0xD3#8]]]) = true := by decide
/-- F3: the packet without payload is not received; its three bytes are a frame still open. -/
theorem test_pkt_runt_stays_open :
    nextWith (exec (.pkt 0x71#8 [] 0x8F#8) (midFrame 258 []))
      (fun t => t.count == 3 && t.sink == []) = true := by decide

/-! ## Witnesses: for every statement with hypotheses, a state and operands that meet them all -/

/-- The packets of F1, F2 and F5 and their pieces. -/
abbrev f1 : List Byte := [0x10#8, 0x01#8, 0xAA#8, 0x45#8]
abbrev f2 : List Byte := [0x20#8, 0x02#8, 0x05#8, 0x06#8, 0xD3#8]
abbrev f5 : List Byte := [0x01#8, 0x03#8, 0x09#8, 0x09#8, 0x09#8, 0xE1#8]

theorem inv_empty : (midFrame 258 []).Inv := inv_of_fits (by decide)
theorem inv_third : (midFrame 258 f1.dropLast).Inv := inv_of_fits (by decide)
theorem inv_pending {s : State} (h : s.Inv) (rs : List Request) :
    State.Inv { s with pending := rs } := ⟨h.instanceOk, h.framerOk⟩

theorem witness_StepKeepsSoundness :
    ∃ s t : State, s.Inv ∧ step s = .next t ∧ t.sink = [f1] :=
  have ⟨t, h, ht⟩ := next_of_check (o := step { midFrame 258 f1.dropLast with pending := [.rx [0x45#8]] })
    (P := fun t => t.sink = [f1]) (by decide)
  ⟨_, t, inv_pending inv_third _, h, ht⟩

theorem witness_EveryOperationCompletes :
    (midFrame 258 []).Inv ∧
    WellFormed .reset = true ∧ WellFormed (.rxByte 0xFF#8) = true ∧
    WellFormed (.poll (ready f1)) = true ∧ WellFormed (.checksum f1 4) = true ∧
    WellFormed (.verify []) = true ∧ WellFormed .buildRequest = true ∧
    WellFormed (.serialize 0x71#8 (List.replicate 255 0#8)) = true ∧
    WellFormed (.pkt 0x71#8 (List.replicate 255 0#8) 0x90#8) = true :=
  ⟨inv_empty, rfl, rfl, rfl, rfl, rfl, rfl, by rw [WellFormed, List.length_replicate]; rfl,
    by rw [WellFormed, List.length_replicate]; rfl⟩

theorem witness_EveryRunCompletes :
    (midFrame 258 []).Inv ∧ ∀ i ∈ [Instr.rxByte 0x10#8, .poll (ready f2), .buildRequest],
      WellFormed i = true := ⟨inv_empty, by decide⟩

theorem witness_StepRunsTheInvokedOperation :
    { midFrame 258 [] with pending := [.verify f1] }.pending = [.verify f1] ∧
    decode (.verify f1) = .ok (.verify f1) := ⟨rfl, by decide⟩

theorem witness_IdleStepChangesNothing : (midFrame 258 []).pending = [] := rfl

theorem witness_RejectedInvocationIsRefused :
    { midFrame 258 [] with pending := [.csum f1 5] }.pending = [.csum f1 5] ∧
    decode (.csum f1 5) = .error .countBeyondData := ⟨rfl, by decide⟩

theorem witness_OfferedWordRunsNext : decodeTableWord 8 0x10 = some (.rxByte 0x10#8) ∧
    decodeTableWord 32 0x45AA0110 = some (.pkt 0x10#8 [0xAA#8] 0x45#8) := by decide

theorem witness_DecodeOfEncodeIsTheInstruction :
    WellFormed (.checksum f1 4) = true ∧ WellFormed (.serialize 0x71#8 []) = true ∧
    WellFormed (.pkt 0x71#8 (List.replicate 255 0#8) 0x90#8) = true :=
  ⟨rfl, rfl, by rw [WellFormed, List.length_replicate]; rfl⟩

theorem witness_DecodedInvocationIsTheEncodedOne :
    decode (.rx f1) = .ok (.pkt 0x10#8 [0xAA#8] 0x45#8) := by decide

theorem witness_PacketFieldsStandAtTheirBits :
    8 < 9 ∧ 0x1FF < 2 ^ 9 ∧ 8 < 32 ∧ 0x45AA0110 < 2 ^ 32 := by decide

theorem witness_IllFormedOperationIsRefused :
    f1.length < 5 ∧ 255 < (List.replicate 256 0#8).length ∧ WellFormed (.checksum f1 5) = false :=
  ⟨by decide, by rw [List.length_replicate]; decide, by decide⟩

theorem witness_InstanceConstantsNeverChange :
    ∃ t, step { midFrame 258 [] with pending := [.rst] } = .next t :=
  have ⟨t, h, _⟩ := next_of_check (o := step { midFrame 258 [] with pending := [.rst] })
    (P := fun _ => True) (by decide)
  ⟨t, h⟩

theorem witness_NoCellBeyondTheCapacityIsWritten :
    (∀ i, i < 5 → ∃ v, (draining 0xFF#8 257).cell i = some v) ∧
    Memory.inside 5 (draining 0xFF#8 257).framer.buf ∧
    ∃ t, step { draining 0xFF#8 257 with pending := [.rx [0xFF#8]] } = .next t :=
  have ⟨t, h, _⟩ := next_of_check (o := step { draining 0xFF#8 257 with pending := [.rx [0xFF#8]] })
    (P := fun _ => True) (by decide)
  ⟨(inv_of_fits (cap := 5) (n := 257) (by decide)).framerOk.whole, by decide, t, h⟩

theorem witness_SinkGetsExactlyTheDeliveredPackets :
    ∃ t, exec (.rxByte 0x45#8) (midFrame 258 f1.dropLast) = .next t ∧
      (midFrame 258 f1.dropLast).newEvents t = [.delivered f1] ∧
      (midFrame 258 f1.dropLast).newEvents t ≠ [.pending] :=
  have ⟨t, h, ht⟩ := next_of_check (o := exec (.rxByte 0x45#8) (midFrame 258 f1.dropLast))
    (P := fun t => (midFrame 258 f1.dropLast).newEvents t = [.delivered f1]) (by decide)
  ⟨t, h, ht, by rw [ht]; decide⟩

/-- Two states that differ in the dead cell 4 of F5's end, and nowhere else. -/
theorem witness_DeadCellsAreNeverObserved :
    (machine 5 f1 0).Inv ∧ (machine 5 (f1 ++ [0xE1#8]) 0).Inv ∧
    WellFormed (.rxByte 0x10#8) = true ∧
    Framer.Agree 5 (machine 5 f1 0).framer (machine 5 (f1 ++ [0xE1#8]) 0).framer ∧
    { machine 5 (f1 ++ [0xE1#8]) 0 with framer := (machine 5 f1 0).framer } = machine 5 f1 0 :=
  ⟨inv_of_fits (by decide), inv_of_fits (by decide), rfl,
    ⟨by decide, fun i hi => absurd hi (by
      rw [show Framer.live 5 (machine 5 f1 0).framer = 0 by decide]; omega)⟩, rfl⟩

theorem witness_ResetDropsTheFrameInProgress : 5 ≤ (midFrame 5 []).params.cap := by decide

theorem witness_HeaderBytesAreStoredAndPending :
    (midFrame 258 []).Inv ∧ (midFrame 258 []).count < 3 ∧
    (midFrame 5 [0x31#8, 0x03#8]).Inv ∧ (midFrame 5 [0x31#8, 0x03#8]).count < 3 :=
  ⟨inv_empty, by decide, inv_of_fits (by decide), by decide⟩

/-- Before the fourth byte, with the length byte `len` and capacity `cap`. -/
def third (cap : Nat) (len : Byte) : State := midFrame cap [0x71#8, len, 0x09#8]

theorem witness_FourthByteClassifiesTheFrame :
    ((third 5 0x00#8).Inv ∧ (third 5 0x00#8).count = 3 ∧ (third 5 0x00#8).cell 1 = some 0x00#8 ∧
      (0x00#8).toNat + 3 < 4) ∧
    ((third 5 0x03#8).Inv ∧ (third 5 0x03#8).count = 3 ∧ (third 5 0x03#8).cell 1 = some 0x03#8 ∧
      (0x03#8).toNat + 3 > (third 5 0x03#8).params.cap) ∧
    ((third 5 0x01#8).Inv ∧ (third 5 0x01#8).count = 3 ∧ (third 5 0x01#8).cell 1 = some 0x01#8 ∧
      (0x01#8).toNat + 3 = 4) ∧
    ((third 5 0x02#8).Inv ∧ (third 5 0x02#8).count = 3 ∧ (third 5 0x02#8).cell 1 = some 0x02#8 ∧
      5 ≤ (0x02#8).toNat + 3 ∧ (0x02#8).toNat + 3 ≤ (third 5 0x02#8).params.cap) :=
  ⟨⟨inv_of_fits (by decide), by decide⟩, ⟨inv_of_fits (by decide), by decide⟩,
    ⟨inv_of_fits (by decide), by decide⟩, ⟨inv_of_fits (by decide), by decide⟩⟩

/-- Four bytes of a frame of capacity 6, with the length byte `len`. -/
def fourth (len : Byte) : State := midFrame 6 [0x71#8, len, 0x09#8, 0x09#8]

theorem witness_PayloadBytesAreStoredUntilTheLast :
    ((fourth 0x03#8).Inv ∧ 4 ≤ (fourth 0x03#8).count ∧ (fourth 0x03#8).cell 1 = some 0x03#8 ∧
      (0x03#8).toNat + 3 ≤ (fourth 0x03#8).params.cap ∧
      (fourth 0x03#8).count + 1 < (0x03#8).toNat + 3) ∧
    ((fourth 0x02#8).Inv ∧ 4 ≤ (fourth 0x02#8).count ∧ (fourth 0x02#8).cell 1 = some 0x02#8 ∧
      (0x02#8).toNat + 3 ≤ (fourth 0x02#8).params.cap ∧
      (fourth 0x02#8).count + 1 = (0x02#8).toNat + 3) :=
  ⟨⟨inv_of_fits (by decide), by decide⟩, ⟨inv_of_fits (by decide), by decide⟩⟩

/-- The frame that the byte 45 makes verify, and the byte 46 does not. -/
theorem witness_CompletingByteVerifiesAndEndsTheFrame :
    (midFrame 5 f1.dropLast).Inv ∧ 3 ≤ (midFrame 5 f1.dropLast).count ∧
    (midFrame 5 f1.dropLast).cell 1 = some 0x01#8 ∧
    (0x01#8).toNat + 3 ≤ (midFrame 5 f1.dropLast).params.cap ∧
    (midFrame 5 f1.dropLast).count + 1 = (0x01#8).toNat + 3 ∧
    verify f1 = true ∧ verify (f1.dropLast ++ [0x46#8]) = false :=
  ⟨inv_of_fits (by decide), by decide⟩

theorem witness_OversizedFrameIsDrainedToItsEnd :
    ((draining 0xFF#8 4).Inv ∧ 4 ≤ (draining 0xFF#8 4).count ∧
      (draining 0xFF#8 4).cell 1 = some 0xFF#8 ∧ (draining 0xFF#8 4).params.cap < (0xFF#8).toNat + 3 ∧
      (draining 0xFF#8 4).count + 1 < (0xFF#8).toNat + 3) ∧
    ((draining 0xFF#8 257).Inv ∧ 4 ≤ (draining 0xFF#8 257).count ∧
      (draining 0xFF#8 257).cell 1 = some 0xFF#8 ∧
      (draining 0xFF#8 257).params.cap < (0xFF#8).toNat + 3 ∧
      (draining 0xFF#8 257).count + 1 = (0xFF#8).toNat + 3) ∧
    ((midFrame 5 []).Inv ∧ (midFrame 5 []).count = 0 ∧ f5[1]? = some 0x03#8 ∧
      f5.length = (0x03#8).toNat + 3 ∧ (midFrame 5 []).params.cap < (0x03#8).toNat + 3) :=
  ⟨⟨inv_of_fits (by decide), by decide⟩, ⟨inv_of_fits (by decide), by decide⟩,
    ⟨inv_of_fits (by decide), by decide⟩⟩

theorem witness_RuntTakesFourBytes :
    (third 5 0x00#8).Inv ∧ (third 5 0x00#8).count = 3 ∧ (third 5 0x00#8).cell 1 = some 0x00#8 ∧
    (midFrame 258 []).Inv ∧ (midFrame 258 []).count = 0 :=
  ⟨inv_of_fits (by decide), by decide, by decide, inv_empty, by decide⟩

/-- An accepted byte in each of the three phases. -/
theorem witness_ByteIsWrittenAtOneIndexOnly :
    (∃ t, exec (.rxByte 0x10#8) (midFrame 258 []) = .next t) ∧
    (∃ t, exec (.rxByte 0x10#8) (fourth 0x03#8) = .next t) ∧
    (∃ t, exec (.rxByte 0x10#8) (draining 0xFF#8 257) = .next t) := by
  refine ⟨?_, ?_, ?_⟩ <;>
    exact (next_of_check (P := fun _ => True) (by decide)).imp fun _ h => h.1

theorem witness_CountGoesUpByOneOrToZero :
    (∃ t, exec (.rxByte 0x10#8) (midFrame 258 []) = .next t ∧
      (midFrame 258 []).newEvents t = [.pending]) ∧
    (∃ t, exec (.rxByte 0x45#8) (midFrame 258 f1.dropLast) = .next t ∧
      (midFrame 258 f1.dropLast).newEvents t = [.delivered f1]) :=
  ⟨next_of_check (by decide), next_of_check (by decide)⟩

theorem witness_CountStaysInsideItsBounds :
    (draining 0xFF#8 257).Inv ∧ 4 ≤ (draining 0xFF#8 257).count ∧
    (fourth 0x03#8).Inv ∧ Framer.phase 6 (fourth 0x03#8).framer = .ok .payload :=
  ⟨inv_of_fits (by decide), by decide, inv_of_fits (by decide), by decide⟩

theorem witness_PhaseIsAViewOfTheCount :
    (third 5 0x03#8).Inv ∧ (third 5 0x03#8).count < 4 ∧
    (fourth 0x03#8).Inv ∧ 4 ≤ (fourth 0x03#8).count ∧ (0x03#8).toNat + 3 ≤ 6 ∧
    (draining 0x03#8 4).Inv ∧ 4 ≤ (draining 0x03#8 4).count ∧ (0x03#8).toNat + 3 > 5 ∧
    ∃ t, exec (.rxByte 0x10#8) (fourth 0x03#8) = .next t :=
  ⟨inv_of_fits (by decide), by decide, inv_of_fits (by decide), by decide, by decide,
    inv_of_fits (by decide), by decide, by decide,
    (next_of_check (P := fun _ => True) (by decide)).imp fun _ h => h.1⟩

theorem witness_OverflowLevelRisesAndFalls :
    ((third 5 0x03#8).Inv ∧ Framer.ovf 5 (third 5 0x03#8).framer = false ∧
      ∃ t, exec (.rxByte 0x09#8) (third 5 0x03#8) = .next t ∧ Framer.ovf t.params.cap t.framer = true) ∧
    ((draining 0x03#8 5).Inv ∧ Framer.ovf 5 (draining 0x03#8 5).framer = true ∧
      ∃ t, exec (.rxByte 0xE1#8) (draining 0x03#8 5) = .next t ∧
        Framer.ovf t.params.cap t.framer = false) ∧
    ∃ t, exec .reset (draining 0x03#8 5) = .next t :=
  ⟨⟨inv_of_fits (by decide), by decide, next_of_check (by decide)⟩,
    ⟨inv_of_fits (by decide), by decide, next_of_check (by decide)⟩, _, rfl⟩

theorem witness_EventCodesAreThoseOfTheTable :
    ∃ t, exec (.poll ⟨none, [], []⟩) (midFrame 258 []) = .next t ∧
      t.stat.map Stat.ev = [5#3] := next_of_check (by decide)

theorem witness_EveryByteBelongsToOneFrame :
    (midFrame 5 []).Inv ∧ (midFrame 5 []).count = 0 ∧
    [0x71#8, 0x00#8, 0x8F#8, 0x10#8].length = (if (0x00#8).toNat = 0 then 4 else (0x00#8).toNat + 3) ∧
    f1[1]? = some 0x01#8 ∧ f1.length = (if (0x01#8).toNat = 0 then 4 else (0x01#8).toNat + 3) ∧
    f5[1]? = some 0x03#8 ∧ f5.length = (if (0x03#8).toNat = 0 then 4 else (0x03#8).toNat + 3) :=
  ⟨inv_of_fits (by decide), by decide⟩

theorem witness_FrameClassIsFixedAtTheFourthByte :
    ((fourth 0x03#8).Inv ∧ Framer.phase 6 (fourth 0x03#8).framer = .ok .payload ∧
      ∃ t, exec (.rxByte 0x09#8) (fourth 0x03#8) = .next t ∧
        t.count = 5) ∧
    ((draining 0x03#8 4).Inv ∧ Framer.phase 5 (draining 0x03#8 4).framer = .ok .overflow ∧
      ∃ t, exec (.rxByte 0x09#8) (draining 0x03#8 4) = .next t ∧
        Framer.ovf t.params.cap t.framer = true) ∧
    ((third 5 0x03#8).Inv ∧ Framer.phase 5 (third 5 0x03#8).framer = .ok .header ∧
      ∃ t, exec (.rxByte 0x09#8) (third 5 0x03#8) = .next t ∧
        Framer.ovf t.params.cap t.framer = true) :=
  ⟨⟨inv_of_fits (by decide), by decide, next_of_check (by decide)⟩,
    ⟨inv_of_fits (by decide), by decide, next_of_check (by decide)⟩,
    ⟨inv_of_fits (by decide), by decide, next_of_check (by decide)⟩⟩

/-- A state without cells, which no run reaches. -/
def noCells : State := { machine 258 [] 4 with framer := { buf := [], filled := 4#9 } }

theorem witness_UnsoundStatesFaultByName :
    (1 < (fourth 0x01#8).params.cap ∧ 4 ≤ (fourth 0x01#8).count ∧
      (fourth 0x01#8).cell 1 = some 0x01#8 ∧ (0x01#8).toNat + 3 ≤ (fourth 0x01#8).count) ∧
    (1 < noCells.params.cap ∧ 4 ≤ noCells.count ∧ noCells.cell 1 = none) ∧
    ((machine 3 [] 3).count < 4 ∧ (machine 3 [] 3).params.cap ≤ (machine 3 [] 3).count) := by decide

theorem witness_TransportErrorAbortsThePoll : (⟨none, f1, []⟩ : Transport).avail = none := rfl

theorem witness_PollWithNothingToReadEndsAtOnce :
    (midFrame 258 []).Inv ∧ (ready []).avail = some 0 ∧
    (⟨some 1, [], []⟩ : Transport).avail = some 1 ∧ (⟨some 1, [], []⟩ : Transport).stream = [] ∧
    (⟨some 4, f1, [0]⟩ : Transport).avail = some 4 ∧
    (⟨some 4, f1, [0]⟩ : Transport).limits.head? = some 0 := ⟨inv_empty, by decide⟩

/-- One turn of the loop in each phase: F2's last byte, F1's first four, and F5's drain, whose
request the capacity bounds. -/
theorem witness_PollReadsAChunkAndGoesOn :
    ((midFrame 258 []).Inv ∧ (ready f1).avail = some 4 ∧
      Framer.phase 258 (midFrame 258 []).framer = .ok .header ∧
      4 = min 4 (4 - (midFrame 258 []).count) ∧ 0 < (Transport.chunk (ready f1) 4).length) ∧
    ((fourth 0x03#8).Inv ∧ Framer.phase 6 (fourth 0x03#8).framer = .ok .payload ∧
      (∀ len, (fourth 0x03#8).cell 1 = some len → 2 = min 4 (len.toNat + 3 - (fourth 0x03#8).count)) ∧
      0 < (Transport.chunk (ready f1) 2).length) ∧
    ((draining 0x03#8 4).Inv ∧ Framer.phase 5 (draining 0x03#8 4).framer = .ok .overflow ∧
      (∀ len, (draining 0x03#8 4).cell 1 = some len →
        1 = min (min 4 (len.toNat + 3 - (draining 0x03#8 4).count)) (5 - 4)) ∧
      0 < (Transport.chunk (ready f1) 1).length) :=
  ⟨⟨inv_empty, by decide⟩,
    ⟨inv_of_fits (by decide), by decide, fun len h => by cases h; decide, by decide⟩,
    ⟨inv_of_fits (by decide), by decide, fun len h => by cases h; decide, by decide⟩⟩

theorem witness_ChunkEndsAtMostOneFrame :
    (midFrame 258 []).Inv ∧ Framer.request 258 (midFrame 258 []).framer 20 = .ok 4 ∧ f1.length ≤ 4 ∧
    ∃ t es, feed f1 (midFrame 258 []) = .ok (t, es) :=
  ⟨inv_empty, by decide, by decide, have ⟨t, es, h, _⟩ := feed_total inv_empty f1; ⟨t, es, h⟩⟩

theorem witness_PollReadsWithinItsCount :
    (midFrame 258 []).Inv ∧ (ready f1).avail = some 4 := ⟨inv_empty, rfl⟩

theorem witness_PollsEqualByteWiseReception :
    (midFrame 258 []).Inv ∧ ∀ t ∈ [ready (f1.take 3), ready (f1.drop 3 ++ f2)], t.avail ≠ none :=
  ⟨inv_empty, by decide⟩

theorem witness_PacketsSurviveEveryFragmentation :
    (midFrame 258 []).Inv ∧ (midFrame 258 []).count = 0 ∧
    (∀ p ∈ [f1, f2], ∃ len, p[1]? = some len ∧ p.length = len.toNat + 3 ∧ 1 ≤ len.toNat ∧
      p.length ≤ (midFrame 258 []).params.cap) ∧
    ∃ u, execAll ([ready (f1.take 3), ready (f1.drop 3 ++ f2)].map Instr.poll) (midFrame 258 []) = .next u ∧
      handedOver [ready (f1.take 3), ready (f1.drop 3 ++ f2)] ((midFrame 258 []).newResults u) =
        [f1, f2].flatten := by
  refine ⟨inv_empty, by decide, ?_, next_of_check (by decide)⟩
  intro p hp
  rcases List.mem_cons.mp hp with rfl | hp
  · exact ⟨0x01#8, by decide⟩
  · rcases List.mem_cons.mp hp with rfl | hp
    · exact ⟨0x02#8, by decide⟩
    · cases hp

/-- S3: the longest packet, 258 bytes. -/
def longest : List Byte := [0x71#8, 0xFF#8] ++ List.replicate 255 0x00#8 ++ [0x90#8]

/-- A POLL of a transport that bounds no read takes every byte it announced. -/
theorem poll_takes_all {s : State} (hI : s.Inv) (bs : List Byte) :
    ∃ u, execAll ([ready bs].map Instr.poll) s = .next u ∧
      handedOver [ready bs] (s.newResults u) = bs := by
  obtain ⟨u, calls, es, h, hf, -, -, -, -, hall⟩ := pollLoop_total (t := ready bs) hI (le_refl bs.length)
  have hsum := hall rfl (le_refl _)
  refine ⟨u.answer (.poll calls (nonPending es)), ?_, ?_⟩
  · simp [execAll, exec, execPoll, ready] at h ⊢
    simp [h]
  · simp [State.newResults, (feed_frame hf).2.2.2.1, handedOver, Result.handed, hsum, ready]

/-- S3 at the two capacities on either side of the boundary, and F5 far below it. -/
theorem witness_OversizedFrameNeverReachesTheSink :
    ((midFrame 5 []).Inv ∧ (midFrame 5 []).count = 0 ∧ f5[1]? = some 0x03#8 ∧
      f5.length = (0x03#8).toNat + 3 ∧ (0x03#8).toNat + 3 > (midFrame 5 []).params.cap ∧
      ∃ u, execAll ([ready f5].map Instr.poll) (midFrame 5 []) = .next u ∧
        handedOver [ready f5] ((midFrame 5 []).newResults u) = f5) ∧
    ((midFrame 258 []).Inv ∧ (midFrame 258 []).count = 0 ∧ longest[1]? = some 0xFF#8 ∧
      longest.length = (0xFF#8).toNat + 3 ∧ (midFrame 258 []).params.cap = 258 ∧
      verify longest = true ∧
      ∃ u, execAll ([ready longest].map Instr.poll) (midFrame 258 []) = .next u ∧
        handedOver [ready longest] ((midFrame 258 []).newResults u) = longest) ∧
    ((midFrame 257 []).Inv ∧ (midFrame 257 []).count = 0 ∧ (midFrame 257 []).params.cap = 257 ∧
      ∃ u, execAll ([ready longest].map Instr.poll) (midFrame 257 []) = .next u ∧
        handedOver [ready longest] ((midFrame 257 []).newResults u) = longest) :=
  have hv : verify longest = true := by decide +kernel
  have hl : longest.length = (0xFF#8).toNat + 3 := by decide +kernel
  have h5 : (midFrame 5 []).Inv := inv_of_fits (by decide)
  have h257 : (midFrame 257 []).Inv := inv_of_fits (by decide)
  ⟨⟨h5, by decide, by decide, by decide, by decide, poll_takes_all h5 _⟩,
    ⟨inv_empty, by decide, rfl, hl, rfl, hv, poll_takes_all inv_empty _⟩,
    ⟨h257, by decide, rfl, poll_takes_all h257 _⟩⟩

theorem witness_EncodedPacketLoopsBack :
    (midFrame 258 []).Inv ∧ (midFrame 258 []).count = 0 ∧
    serialize 0x10#8 [0xAA#8] = f1 ∧ buildRequest (midFrame 258 []).params = f1 ∧
    1 ≤ (midFrame 258 []).params.reqLen.toNat ∧
    (midFrame 258 []).params.reqLen.toNat + 3 ≤ (midFrame 258 []).params.cap ∧
    ∃ u, execAll ([ready f1].map Instr.poll) (midFrame 258 []) = .next u ∧
      handedOver [ready f1] ((midFrame 258 []).newResults u) = f1 :=
  ⟨inv_empty, by decide, by decide, by decide, by decide, by decide, next_of_check (by decide)⟩

theorem witness_PacketIsReceivedByteByByte :
    (midFrame 258 []).Inv ∧ ([] : List Byte).length ≤ 255 ∧ (List.replicate 255 0#8).length ≤ 255 :=
  ⟨inv_empty, by decide, by rw [List.length_replicate]⟩

theorem witness_ChecksumIsTheComplementOfTheSum : 4 ≤ f1.length ∧ 0 ≤ ([] : List Byte).length := by decide

theorem witness_ChecksumIgnoresTheOrderOfBytes : [0x01#8, 0x02#8].Perm [0x02#8, 0x01#8] := by decide

theorem witness_ChecksumIsTheNegatedSum : 4 ≤ f1.length := by decide

theorem witness_VerifyComparesTheChecksumByte :
    f1[1]? = some 0x01#8 ∧ (0x01#8).toNat + 3 ≤ f1.length := by decide

theorem witness_VerifyHoldsIffTheBytesSumToZero :
    [0x71#8, 0x00#8, 0x8F#8][1]? = some 0x00#8 ∧ (0x00#8).toNat + 3 ≤ [0x71#8, 0x00#8, 0x8F#8].length := by
  decide

theorem witness_SingleByteChangeIsAlwaysDetected :
    verify f1 = true ∧ f1[1]? = some 0x01#8 ∧ 3 ≠ 1 ∧ 3 ≤ (0x01#8).toNat + 2 ∧ f1[3]? ≠ some 0x46#8 ∧
    0 ≠ 1 ∧ f1[0]? ≠ some 0x11#8 := by decide

theorem witness_CodecTouchesNoState :
    (∃ t, exec (.checksum f1 3) (midFrame 258 []) = .next t) ∧
    ∃ t, exec (.verify f1) (midFrame 258 []) = .next t := ⟨⟨_, rfl⟩, _, rfl⟩

theorem witness_SerializeLaysOutThePacket :
    ([] : List Byte).length ≤ 255 ∧ (List.replicate 255 0#8).length ≤ 255 :=
  ⟨by decide, by rw [List.length_replicate]⟩

theorem witness_SerializedPacketVerifies : ([] : List Byte).length ≤ 255 ∧ (midFrame 258 []).Inv :=
  ⟨by decide, inv_empty⟩

theorem witness_RequestImageIsThatOfTheTemplate :
    (midFrame 258 []).params.reqLead.length ≤ (midFrame 258 []).params.reqLen.toNat := by decide

theorem witness_BadTemplateIsRefused :
    { cap := 258, reqType := 0x20#8, reqLen := 0x00#8, reqLead := [0xAA#8] : Params }.reqLen.toNat <
      [0xAA#8].length := by decide

theorem witness_EncoderIsPure :
    (midFrame 258 []).params = (midFrame 258 f1.dropLast).params ∧
    (∃ u, exec (.serialize 0x10#8 [0xAA#8]) (midFrame 258 []) = .next u) ∧
    ∃ u, exec .buildRequest (midFrame 258 []) = .next u := ⟨rfl, ⟨_, rfl⟩, _, rfl⟩

end Sys2Proof.Tests
end

section
/-! The state after reset (spec R5, R20, R32, R161) and the dispatch of one step (spec R15, R44, R50). -/

namespace Sys2Proof.Machine

/-! ### The state after reset -/

@[simp] theorem State.reset_count : State.reset.count = 0 := rfl

@[simp] theorem State.reset_cap : State.reset.params.cap = 258 := rfl

/-- A cell of `BUF` right after a RESET: a free byte below the capacity, no cell from there on. -/
theorem Framer.read_initial (cap n i : Nat) :
    Memory.read (Framer.initial cap n).buf i =
      if i < cap then some (Config.resetCell n i) else none := by
  show Memory.read (Memory.fill (Config.resetCell n) 0 cap) i = _
  rw [Memory.read_fill]
  exact if_congr (by omega) rfl rfl

theorem State.reset_cell (i : Nat) :
    State.reset.cell i = if i < 258 then some (Config.resetCell 0 i) else none :=
  Framer.read_initial 258 0 i

/-- Settles O1: `FILLED = 0` puts the framer in phase Header with `OVF` low, and the cells are those of
the filled buffer. -/
theorem resetStateIsTheEmptyInstanceOfRecord :
    Obligations.ResetStateIsTheEmptyInstanceOfRecord := by
  have hcount : State.reset.count < 4 := by simp
  have hcells : ∀ i, i < 258 → ∃ v, State.reset.cell i = some v := fun i hi =>
    ⟨Config.resetCell 0 i, by rw [State.reset_cell, if_pos hi]⟩
  have hnone : ∀ i, 258 ≤ i → State.reset.cell i = none := fun i hi => by
    rw [State.reset_cell, if_neg (by omega)]
  exact ⟨State.reset_count, Framer.phase_header hcount, Framer.ovf_of_lt hcount, State.reset_cap,
    hcells, hnone, rfl, rfl, rfl, rfl⟩

/-! ### The dispatch of one step -/

/-- Fetching takes the next invocation away and leaves the rest of the state as it is. -/
theorem State.fetch_of_pending {s : State} {r : Request} {rest : List Request}
    (h : s.pending = r :: rest) : s.fetch = some (r, { s with pending := rest }) := by
  simp only [State.fetch, h]

/-- A fetched invocation that decodes is run in the state the fetch leaves. -/
theorem step_of_fetch_of_decode {s s' : State} {r : Request} {i : Instr}
    (hf : s.fetch = some (r, s')) (hd : decode r = .ok i) : step s = exec i s' := by
  simp only [step, hf, hd]

/-- Settles O6: the fetch takes the invocation, the decoder names the operation, and the step runs it. -/
theorem stepRunsTheInvokedOperation : Obligations.StepRunsTheInvokedOperation :=
  fun _ _ _ _ hp hd => step_of_fetch_of_decode (State.fetch_of_pending hp) hd

end Sys2Proof.Machine
end

section
/-! What every operation that goes on can do, in any state, sound or not (spec R44, R50, R94, R97, R160). -/

namespace Sys2Proof.Machine

/-! ### One operation run to its end -/

theorem exec_poll_next {s t : State} {tr : Transport} {avail : Nat} (ha : tr.avail = some avail) :
    exec (.poll tr) s = .next t ↔ ∃ u calls outs,
      pollLoop avail avail tr s = .ok (u, calls, outs) ∧ t = u.answer (.poll calls outs) := by
  simp only [exec, execPoll, ha]
  split
  · simp [*]
  · rename_i u calls outs h
    simp [h, eq_comm]

theorem exec_poll_aborted {tr : Transport} (s : State) (ha : tr.avail = none) :
    exec (.poll tr) s = .next s.abortPoll := by
  simp only [exec, execPoll, ha]

theorem exec_pkt_next {s t : State} {ty c : Byte} {p : List Byte} :
    exec (.pkt ty p c) s = .next t ↔ p.length ≤ 255 ∧ ∃ u es,
      feed (encodePkt ty p c) s = .ok (u, es) ∧ t = u.answer (.events es) := by
  simp only [exec, execPkt, Config.maxPayload]
  split
  · split
    · simp [*]
    · rename_i u es h
      simp [*, eq_comm]
  · simp [*]

theorem exec_checksum_next {s t : State} {bs : List Byte} {count : Nat} :
    exec (.checksum bs count) s = .next t ↔
      count ≤ bs.length ∧ t = s.answer (.byte (checksum bs count)) := by
  simp only [exec, execChecksum]
  split <;> simp [*, eq_comm]

theorem exec_verify_next {s t : State} {p : List Byte} :
    exec (.verify p) s = .next t ↔ t = s.answer (.bool (verify p)) := by
  simp [exec, execVerify, eq_comm]

theorem exec_serialize_next {s t : State} {ty : Byte} {p : List Byte} :
    exec (.serialize ty p) s = .next t ↔
      p.length ≤ 255 ∧ t = s.answer (.bytes (serialize ty p)) := by
  simp only [exec, execSerialize, Config.maxPayload]
  split <;> simp [*, eq_comm]

theorem exec_buildRequest_next {s t : State} :
    exec .buildRequest s = .next t ↔
      s.params.reqLead.length ≤ s.params.reqLen.toNat ∧
        t = s.answer (.bytes (buildRequest s.params)) := by
  simp only [exec, execBuildRequest]
  split <;> simp [*, eq_comm]

/-- Everything one turn of the loop of POLL can be: none left to read, a read that answers nothing, or a
chunk fed and the loop gone on with. -/
theorem pollLoop_succ_ok {fuel avail : Nat} {tr : Transport} {s u : State} {calls : List ReadCall}
    {outs : List Event} (h : pollLoop (fuel + 1) avail tr s = .ok (u, calls, outs)) :
    (avail = 0 ∧ u = s ∧ calls = [] ∧ outs = []) ∨
    (avail ≠ 0 ∧ ∃ req, Framer.request s.params.cap s.framer avail = .ok req ∧
      (((Transport.chunk tr req).length = 0 ∧ u = s ∧ calls = [⟨req, 0⟩] ∧ outs = []) ∨
       ((Transport.chunk tr req).length ≠ 0 ∧ ∃ s₁ es calls' outs',
        feed (Transport.chunk tr req) s = .ok (s₁, es) ∧
        pollLoop fuel (avail - (Transport.chunk tr req).length) (Transport.after tr req) s₁
          = .ok (u, calls', outs') ∧
        calls = ⟨req, (Transport.chunk tr req).length⟩ :: calls' ∧
        outs = nonPending es ++ outs'))) := by
  simp only [pollLoop] at h
  split at h
  · cases h; exact .inl ⟨‹_›, rfl, rfl, rfl⟩
  · refine .inr ⟨‹_›, ?_⟩
    split at h
    · cases h
    · rename_i req hreq
      refine ⟨req, hreq, ?_⟩
      split at h
      · rename_i h0
        cases h; exact .inl ⟨h0, rfl, by rw [h0], rfl⟩
      · refine .inr ⟨‹_›, ?_⟩
        split at h
        · cases h
        · rename_i s₁ es hf
          split at h
          · cases h
          · rename_i u' calls' outs' hl
            cases h; exact ⟨s₁, es, calls', outs', hf, hl, rfl, rfl⟩

/-- Whatever a POLL does to the machine, it does by feeding some bytes one by one (R94). -/
theorem pollLoop_feeds {fuel avail : Nat} {tr : Transport} {s u : State} {calls : List ReadCall}
    {outs : List Event} (h : pollLoop fuel avail tr s = .ok (u, calls, outs)) :
    ∃ bs es, feed bs s = .ok (u, es) := by
  induction fuel generalizing avail tr s calls outs with
  | zero => cases h; exact ⟨[], [], rfl⟩
  | succ fuel ih =>
    rcases pollLoop_succ_ok h with ⟨-, rfl, -⟩ | ⟨-, req, -, ⟨-, rfl, -⟩ | ⟨-, s₁, es, _, _, hf, hl, -⟩⟩
    · exact ⟨[], [], rfl⟩
    · exact ⟨[], [], rfl⟩
    · obtain ⟨bs, es', hf'⟩ := ih hl
      exact ⟨_, _, feed_append_ok.mpr ⟨s₁, es, es', hf, hf', rfl⟩⟩

/-- Everything an operation that goes on can do. The codec and the encoder feed no byte. -/
inductive ExecCase (i : Instr) (s t : State) : Prop where
  | reset (hi : i = .reset) (ht : t = s.initialise.answer .done)
  | aborted (tr : Transport) (hi : i = .poll tr) (ht : t = s.abortPoll)
  | fed (bs : List Byte) (es : List Event) (u : State) (r : Result)
      (hf : feed bs s = .ok (u, es)) (ht : t = u.answer r)

theorem exec_case {i : Instr} {s t : State} (h : exec i s = .next t) : ExecCase i s t := by
  cases i with
  | reset => cases h; exact .reset rfl rfl
  | rxByte b =>
    obtain ⟨u, e, hr, rfl⟩ := exec_rxByte_next.mp h
    exact .fed [b] [e] u _ (feed_cons_ok.mpr ⟨u, e, [], hr, rfl, rfl⟩) rfl
  | poll tr =>
    cases ha : tr.avail with
    | none =>
      rw [exec_poll_aborted s ha] at h
      cases h; exact .aborted tr rfl rfl
    | some avail =>
      obtain ⟨u, calls, outs, hl, rfl⟩ := (exec_poll_next ha).mp h
      obtain ⟨bs, es, hf⟩ := pollLoop_feeds hl
      exact .fed bs es u _ hf rfl
  | checksum bs count =>
    obtain ⟨-, rfl⟩ := exec_checksum_next.mp h
    exact .fed [] [] s _ rfl rfl
  | verify p =>
    obtain rfl := exec_verify_next.mp h
    exact .fed [] [] s _ rfl rfl
  | serialize ty p =>
    obtain ⟨-, rfl⟩ := exec_serialize_next.mp h
    exact .fed [] [] s _ rfl rfl
  | buildRequest =>
    obtain ⟨-, rfl⟩ := exec_buildRequest_next.mp h
    exact .fed [] [] s _ rfl rfl
  | pkt ty p c =>
    obtain ⟨-, u, es, hf, rfl⟩ := exec_pkt_next.mp h
    exact .fed _ es u _ hf rfl

/-! ### What every operation and every step keeps -/

@[simp] theorem State.abortPoll_params (s : State) : s.abortPoll.params = s.params := rfl
@[simp] theorem State.abortPoll_framer (s : State) : s.abortPoll.framer = s.framer := rfl

/-- What one byte keeps, a list of bytes keeps. -/
theorem feed_keeps {P : State → Prop} (hstep : ∀ b s t e, rxStep b s = .ok (t, e) → P s → P t)
    {bs : List Byte} {s u : State} {es : List Event} (h : feed bs s = .ok (u, es)) (hs : P s) :
    P u := by
  induction bs generalizing s es with
  | nil => cases h; exact hs
  | cons b bs ih =>
    obtain ⟨s₁, e, es₁, h₁, h₂, -⟩ := feed_cons_ok.mp h
    exact ih h₂ (hstep b s s₁ e h₁ hs)

theorem exec_params {i : Instr} {s t : State} (h : exec i s = .next t) : t.params = s.params := by
  rcases exec_case h with ⟨-, rfl⟩ | ⟨tr, -, rfl⟩ | ⟨bs, es, u, r, hf, rfl⟩
  · rfl
  · rfl
  · obtain ⟨hp, -⟩ := feed_frame hf
    exact hp

theorem step_params {s t : State} (h : step s = .next t) : t.params = s.params := by
  rcases step_next h with ⟨-, rfl⟩ | ⟨r, rest, i, -, -, h⟩
  · rfl
  · exact exec_params (s := { s with pending := rest }) h

/-- What holds of the framer after RESET and is kept by every accepted byte is kept by every operation. -/
theorem exec_keeps_framer {Q : Framer → Prop} {i : Instr} {s t : State}
    (hreset : ∀ n, Q (Framer.initial s.params.cap n))
    (haccept : ∀ f g b e, Framer.accept s.params.cap f b = .ok (g, e) → Q f → Q g)
    (h : exec i s = .next t) (hs : Q s.framer) : Q t.framer := by
  rcases exec_case h with ⟨-, rfl⟩ | ⟨tr, -, rfl⟩ | ⟨bs, es, u, r, hf, rfl⟩
  · exact hreset _
  · exact hs
  · have hbyte : ∀ b v w e, rxStep b v = .ok (w, e) →
        v.params = s.params ∧ Q v.framer → w.params = s.params ∧ Q w.framer := by
      rintro b v w e hr ⟨hp, hq⟩
      obtain ⟨g, ha, rfl⟩ := rxStep_ok.mp hr
      exact ⟨hp, haccept v.framer g b e (hp ▸ ha) hq⟩
    exact (feed_keeps hbyte hf ⟨rfl, hs⟩).2

/-- The same for a step. -/
theorem step_keeps_framer {Q : Framer → Prop} {s t : State}
    (hreset : ∀ n, Q (Framer.initial s.params.cap n))
    (haccept : ∀ f g b e, Framer.accept s.params.cap f b = .ok (g, e) → Q f → Q g)
    (h : step s = .next t) (hs : Q s.framer) : Q t.framer := by
  rcases step_next h with ⟨-, rfl⟩ | ⟨r, rest, i, -, -, h⟩
  · exact hs
  · exact exec_keeps_framer (s := { s with pending := rest }) hreset haccept h hs

/-! ### The cell a byte is written at -/

/-- The cell a byte is written at (R81) is the first dead one: the cursor, or index 4 in Overflow. -/
theorem Framer.writeIndex_eq_live {cap : Nat} {f : Framer} {ph : Phase}
    (h : Framer.phase cap f = .ok ph) : f.writeIndex ph = Framer.live cap f := by
  simp only [Framer.live, Framer.ovf, h]
  cases ph <;> rfl

/-- Where an accepted byte is stored, in every state. -/
theorem Framer.accept_buf {cap : Nat} {f g : Framer} {b : Byte} {e : Event}
    (h : Framer.accept cap f b = .ok (g, e)) :
    Framer.live cap f < cap ∧ g.buf = Memory.write f.buf (Framer.live cap f) b := by
  obtain ⟨ph, hr, hi, hb, -⟩ := Framer.accept_ok h
  obtain ⟨hph, -⟩ := Framer.ready_ok.mp hr
  rw [Framer.writeIndex_eq_live hph] at hi hb
  exact ⟨hi, hb⟩

theorem Framer.four_le_of_ovf {cap : Nat} {f : Framer} (h : Framer.ovf cap f = true) :
    4 ≤ f.filled.toNat := by
  by_contra hlt
  rw [Framer.ovf_of_lt (by omega)] at h
  cases h

theorem Framer.live_le_filled (cap : Nat) (f : Framer) : Framer.live cap f ≤ f.filled.toNat := by
  unfold Framer.live
  split
  · exact Framer.four_le_of_ovf ‹_›
  · exact le_refl _

/-- The header of a frame of four bytes or more is live. -/
theorem Framer.four_le_live {cap : Nat} {f : Framer} (h : 4 ≤ f.filled.toNat) :
    4 ≤ Framer.live cap f := by
  unfold Framer.live
  split
  · exact le_refl _
  · exact h

end Sys2Proof.Machine
end

section
/-! The state family: soundness and the constants (spec R23, R26, R137), the array of cells (R20, R48), the
bounds of the count (R23), the phase (R24), the level `OVF` (R29) and the event codes (R28). -/

namespace Sys2Proof.Machine

/-! ### Soundness -/

/-- Settles O2: `CAP = 258`, the template is cut to its declared length, and a framer after RESET is
sound. -/
theorem resetStateIsSound : Obligations.ResetStateIsSound where
  instanceOk := by
    refine ⟨by decide, ?_⟩
    show Config.reqLead.length ≤ Config.reqLen.toNat
    simp [Config.reqLead]
  framerOk := Framer.inv_initial _ _

/-- Settles O3: RESET leaves a sound framer, and every accepted byte keeps one sound. -/
theorem stepKeepsSoundness : Obligations.StepKeepsSoundness := by
  intro s t hI h
  have hcap := hI.instanceOk.1
  have hkept : Framer.Inv s.params.cap t.framer :=
    step_keeps_framer (Q := Framer.Inv s.params.cap) (Framer.inv_initial _)
      (fun f g b e ha hf => AcceptCase.inv hcap hf (Framer.accept_case ha)) h hI.framerOk
  have hp := step_params h
  exact ⟨hp ▸ hI.instanceOk, hp ▸ hkept⟩

/-- Settles O15: no operation changes the constants, and the idle step changes nothing. -/
theorem instanceConstantsNeverChange : Obligations.InstanceConstantsNeverChange :=
  fun _ _ h => step_params h

/-! ### The array of cells -/

/-- `BUF` has every cell below the capacity. -/
def Memory.Whole (cap : Nat) (m : Memory) : Prop := ∀ i, i < cap → ∃ v, Memory.read m i = some v

theorem Memory.Whole.write {cap : Nat} {m : Memory} (h : Memory.Whole cap m) (i : Nat) (v : Byte) :
    Memory.Whole cap (Memory.write m i v) := by
  intro j hj
  rw [Memory.read_write]
  split
  · exact ⟨v, rfl⟩
  · exact h j hj

/-- Settles O16: RESET lays out exactly the cells below `CAP`, and a byte is written below `CAP` only. -/
theorem noCellBeyondTheCapacityIsWritten : Obligations.NoCellBeyondTheCapacityIsWritten := by
  intro s t h
  rw [step_params h]
  constructor
  · refine step_keeps_framer (Q := fun f => Memory.inside s.params.cap f.buf)
      (fun n => (Framer.inv_initial _ n).inside) (fun f g b e ha hf => ?_) h
    obtain ⟨hi, hb⟩ := Framer.accept_buf ha
    exact hb ▸ Memory.inside_write hf hi
  · refine step_keeps_framer (Q := fun f => Memory.Whole s.params.cap f.buf)
      (fun n => (Framer.inv_initial _ n).whole) (fun f g b e ha hf => ?_) h
    obtain ⟨-, hb⟩ := Framer.accept_buf ha
    exact hb ▸ hf.write _ b

/-! ### The count and the phase -/

/-- R23 (b) of a sound state, with the declared length as a number. -/
theorem State.Inv.tracked {s : State} (hI : s.Inv) (h : 4 ≤ s.count) :
    ∃ len, s.cell 1 = some len ∧ 2 ≤ len.toNat ∧ s.count < len.toNat + 3 := by
  obtain ⟨len, hl, h2, hlt⟩ := hI.framerOk.tracked h
  rw [declaredLength_toNat] at hlt
  exact ⟨len, hl, h2, hlt⟩

theorem State.Inv.one_lt_cap {s : State} (hI : s.Inv) : 1 < s.params.cap :=
  lt_of_lt_of_le (by decide) hI.instanceOk.1

/-- Settles O28: outside Overflow the declared length bounds the count below `CAP`, and a length byte
bounds it below 258. -/
theorem countStaysInsideItsBounds : Obligations.CountStaysInsideItsBounds := by
  intro s hI
  refine ⟨?_, fun h4 => hI.tracked h4, fun ph hph hne => ?_⟩
  · by_cases h4 : 4 ≤ s.count
    · obtain ⟨len, -, -, hlt⟩ := hI.tracked h4
      have := len.isLt
      omega
    · omega
  · by_cases h4 : 4 ≤ s.count
    · obtain ⟨len, hl, -, hlt⟩ := hI.tracked h4
      rw [Framer.phase_of_len hI.one_lt_cap h4 hl] at hph
      cases hph
      have hfits : ¬ len.toNat + 3 > s.params.cap := fun hc => hne (if_pos hc)
      omega
    · have : 5 ≤ s.params.cap := hI.instanceOk.1
      omega

/-- While `FILLED ≥ 4` no byte changes the length byte. -/
theorem exec_rxByte_cell_one {s t : State} {b : Byte} (h : exec (.rxByte b) s = .next t)
    (h4 : 4 ≤ s.count) : t.cell 1 = s.cell 1 := by
  obtain ⟨u, e, hr, rfl⟩ := exec_rxByte_next.mp h
  obtain ⟨g, ha, rfl⟩ := rxStep_ok.mp hr
  obtain ⟨-, hb⟩ := Framer.accept_buf ha
  have hlive := Framer.four_le_live (cap := s.params.cap) h4
  show Memory.read g.buf 1 = _
  rw [hb, Memory.read_write_other (by omega)]

/-- Settles O29: the phase is read off the count and the length byte, and the length byte stays. -/
theorem phaseIsAViewOfTheCount : Obligations.PhaseIsAViewOfTheCount := by
  refine fun s hI => ⟨fun h => Framer.phase_header h, fun h4 => ?_⟩
  obtain ⟨len, hl, -⟩ := hI.tracked h4
  have hph := Framer.phase_of_len hI.one_lt_cap h4 hl
  refine ⟨len, hl, fun hc => ?_, fun hc => ?_, fun b t h => ?_⟩
  · rw [hph, if_pos hc]
  · rw [hph, if_neg (by omega)]
  · rw [exec_rxByte_cell_one h h4, hl]

/-! ### The level `OVF` -/

/-- A byte stored elsewhere than at the length byte leaves the level to be read off the same length. -/
theorem Framer.ovf_of_write {cap w : Nat} {f g : Framer} {b len : Byte} (hc : 1 < cap)
    (h4 : 4 ≤ g.filled.toNat) (hl : Memory.read f.buf 1 = some len)
    (hb : g.buf = Memory.write f.buf w b) (hw : w ≠ 1) :
    Framer.ovf cap g = decide (cap < len.toNat + 3) :=
  Framer.ovf_of_len hc h4 (by rw [hb, Memory.read_write_other hw, hl])

/-- In which frames the level is high after a byte: an oversized one just classified, or one still
draining. -/
theorem AcceptCase.ovf_iff {cap : Nat} {f g : Framer} {b : Byte} {e : Event} (hcap : 5 ≤ cap)
    (h : AcceptCase cap f b g e) :
    Framer.ovf cap g = true ↔ 3 ≤ f.filled.toNat ∧ ∃ len, Memory.read f.buf 1 = some len ∧
      cap < len.toNat + 3 ∧ f.filled.toNat + 1 < len.toNat + 3 := by
  cases h with
  | header h hb hn he =>
    rw [Framer.ovf_of_lt (by omega)]
    simp only [Bool.false_eq_true, false_iff, not_and]
    intro; omega
  | runt len h hl hc hb hn he =>
    rw [Framer.ovf_of_lt (by omega)]
    simp [hl, hc]; omega
  | enter len h hl hc hb hn he =>
    rw [Framer.ovf_of_write (by omega) (by omega) hl hb (by omega)]
    simp [hl, hc]; omega
  | collect len h hl hc h' hb hn he =>
    rw [Framer.ovf_of_write (by omega) (by omega) hl hb (by omega)]
    simp [hl]; omega
  | finish len p h hl hc h' hb hn hp hr he =>
    rw [Framer.ovf_of_lt (by omega)]
    simp [hl]; omega
  | drain len h hl hc h' hb hn he =>
    rw [Framer.ovf_of_write (by omega) (by omega) hl hb (by omega)]
    simp [hl, hc]; omega
  | drained len h hl hc h' hb hn he =>
    rw [Framer.ovf_of_lt (by omega)]
    simp [hl]; omega

/-- `OVF` of a sound state, from the count and the length byte. -/
theorem State.Inv.ovf_iff {s : State} (hI : s.Inv) :
    Framer.ovf s.params.cap s.framer = true ↔
      4 ≤ s.count ∧ ∃ len, s.cell 1 = some len ∧ s.params.cap < len.toNat + 3 := by
  by_cases h4 : 4 ≤ s.count
  · obtain ⟨len, hl, -⟩ := hI.tracked h4
    rw [Framer.ovf_of_len hI.one_lt_cap h4 hl]
    simp [h4, hl]
  · rw [Framer.ovf_of_lt (Nat.lt_of_not_le h4)]
    simp [h4]

/-- `OVF` after RX_BYTE from a sound state. -/
theorem State.Inv.ovf_rxByte_iff {s t : State} {b : Byte} (hI : s.Inv)
    (h : exec (.rxByte b) s = .next t) :
    Framer.ovf t.params.cap t.framer = true ↔ 3 ≤ s.count ∧ ∃ len, s.cell 1 = some len ∧
      s.params.cap < len.toNat + 3 ∧ s.count + 1 < len.toNat + 3 := by
  obtain ⟨u, e, hr, rfl⟩ := exec_rxByte_next.mp h
  obtain ⟨g, ha, rfl⟩ := rxStep_ok.mp hr
  exact AcceptCase.ovf_iff hI.instanceOk.1 (Framer.accept_case ha)

/-- Settles O30: the level before and after a byte, each read off the count and the length byte. -/
theorem overflowLevelRisesAndFalls : Obligations.OverflowLevelRisesAndFalls := by
  refine ⟨fun s => Framer.ovf_eq_true, fun s t b hI h => ⟨fun hlow => ?_, fun hhigh => ?_⟩, ?_⟩
  · rw [hI.ovf_rxByte_iff h]
    have hcap : 5 ≤ s.params.cap := hI.instanceOk.1
    constructor
    · rintro ⟨h3, len, hl, hc, -⟩
      refine ⟨?_, len, hl, hc⟩
      by_contra hne
      rw [hI.ovf_iff.mpr ⟨by omega, len, hl, hc⟩] at hlow
      cases hlow
    · rintro ⟨h3, len, hl, hc⟩
      exact ⟨by omega, len, hl, hc, by omega⟩
  · obtain ⟨h4, len, hl, hc⟩ := hI.ovf_iff.mp hhigh
    obtain ⟨len', hl', -, hlt⟩ := hI.tracked h4
    obtain rfl := Option.some.inj (hl.symm.trans hl')
    rw [← Bool.not_eq_true, hI.ovf_rxByte_iff h]
    simp only [hl, Option.some.injEq, exists_eq_left']
    omega
  · intro s t h
    cases h
    exact Framer.ovf_of_lt (show (0#9).toNat < 4 by decide)

/-! ### The event codes -/

/-- Code 5 is no outcome of an accepted byte (R12, R28). -/
theorem AcceptCase.ev_ne_five {cap : Nat} {f g : Framer} {b : Byte} {e : Event}
    (h : AcceptCase cap f b g e) : e.ev ≠ 5#3 := by
  cases h with
  | finish len p h hl hc h' hb hn hp hr he =>
    subst he
    unfold verdict
    split <;> simp [Event.ev]
  | header _ _ _ he | runt _ _ _ _ _ _ he | enter _ _ _ _ _ _ he | collect _ _ _ _ _ _ _ he
  | drain _ _ _ _ _ _ _ he | drained _ _ _ _ _ _ _ he => subst he; decide

/-- Beyond what it showed as `s`, the machine has shown entries with the property `P` only. -/
def State.Shows (s : State) (P : Stat → Prop) (t : State) : Prop :=
  ∃ new : List Stat, t.stat = s.stat ++ new ∧ ∀ st ∈ new, P st

theorem State.Shows.nothing {s t : State} {P : Stat → Prop} (h : t.stat = s.stat) : s.Shows P t :=
  ⟨[], by simp [h], by simp⟩

theorem State.Shows.emit {s t : State} {P : Stat → Prop} (h : s.Shows P t) (f : Framer) {st : Stat}
    (hst : P st) : s.Shows P (t.emit f st) := by
  obtain ⟨new, hn, hP⟩ := h
  refine ⟨new ++ [st], by simp [hn], fun st' hm => ?_⟩
  rcases List.mem_append.mp hm with hm | hm
  · exact hP st' hm
  · exact List.mem_singleton.mp hm ▸ hst

/-- Everything a fed list of bytes shows carries its outcome's code, which is not 5. -/
theorem feed_shows_codes {bs : List Byte} {s u : State} {es : List Event}
    (h : feed bs s = .ok (u, es)) : s.Shows (fun st => st.ev = st.event.ev ∧ st.ev ≠ 5#3) u := by
  refine feed_keeps (P := s.Shows _) (fun b v w e hr hv => ?_) h (.nothing rfl)
  obtain ⟨g, ha, rfl⟩ := rxStep_ok.mp hr
  exact hv.emit g ⟨rfl, AcceptCase.ev_ne_five (Framer.accept_case ha)⟩

/-- Codes 6 and 7 are unused. -/
theorem Event.ev_lt_six (e : Event) : e.ev < 6#3 := by
  rcases e with _ | _ | r | a
  · decide
  · show (1#3) < 6#3; decide
  · cases r <;> decide
  · cases a; decide

/-- Settles O31: what bytes show has codes below 5, and an aborted POLL shows the one entry of code 5. -/
theorem eventCodesAreThoseOfTheTable : Obligations.EventCodesAreThoseOfTheTable := by
  refine ⟨rfl, fun _ => rfl, rfl, rfl, rfl, rfl, fun e => ?_, fun i s t h => ?_⟩
  · have := e.ev_lt_six
    constructor <;> intro heq <;> rw [heq] at this <;> exact absurd this (by decide)
  · show s.Shows _ t
    rcases exec_case h with ⟨-, rfl⟩ | ⟨tr, rfl, rfl⟩ | ⟨bs, es, u, r, hf, rfl⟩
    · exact .nothing rfl
    · exact (State.Shows.nothing (s := s) (t := s) rfl).emit s.framer ⟨rfl, fun _ => ⟨tr, rfl⟩⟩
    · obtain ⟨new, hn, hcode⟩ := feed_shows_codes hf
      refine ⟨new, hn, fun st hst => ?_⟩
      obtain ⟨hev, h5⟩ := hcode st hst
      exact ⟨hev, fun h => absurd h h5⟩

/-! ### What changes nothing -/

/-- Settles O7: the fetch finds no invocation. -/
theorem idleStepChangesNothing : Obligations.IdleStepChangesNothing := by
  intro s h
  simp only [step, State.fetch, h]

/-- CHECKSUM and VERIFY hand back one result, and that is all. -/
theorem exec_codec_answers {i : Instr} {s t : State}
    (hi : (∃ bytes count, i = .checksum bytes count) ∨ ∃ p, i = .verify p)
    (h : exec i s = .next t) : ∃ r, t = s.answer r := by
  rcases hi with ⟨bytes, count, rfl⟩ | ⟨p, rfl⟩
  · exact ⟨_, (exec_checksum_next.mp h).2⟩
  · exact ⟨_, exec_verify_next.mp h⟩

/-- Settles O51: handing back a result touches nothing else. -/
theorem codecTouchesNoState : Obligations.CodecTouchesNoState := by
  intro i s t hi h
  obtain ⟨r, rfl⟩ := exec_codec_answers hi h
  exact ⟨rfl, fun _ => rfl, rfl, rfl, rfl, rfl, rfl, r, rfl⟩

end Sys2Proof.Machine
end

section
/-! Dead cells are never observed (spec R21, R32, R162): a simulation between two states that differ in dead
cells only, through the views, one accepted byte, a list of bytes, the loop of POLL and every operation. -/

namespace Sys2Proof.Machine

/-! ### The views read live cells alone -/

section agree
variable {cap : Nat} {f g : Framer}

/-- Two framers that agree have the same length byte wherever a view reads it. -/
theorem Framer.Agree.read_one (h : Framer.Agree cap f g) (h4 : 4 ≤ f.filled.toNat) :
    Memory.read f.buf 1 = Memory.read g.buf 1 := by
  have := Framer.four_le_live (cap := cap) h4
  exact h.cells 1 (by omega)

theorem Framer.Agree.expected (h : Framer.Agree cap f g) (h4 : 4 ≤ f.filled.toNat) :
    Framer.expected cap f = Framer.expected cap g := by
  simp only [Framer.expected, Memory.load, h.read_one h4]

theorem Framer.Agree.remaining (h : Framer.Agree cap f g) (h4 : 4 ≤ f.filled.toNat) :
    Framer.remaining cap f = Framer.remaining cap g := by
  simp only [Framer.remaining, h.expected h4, h.filled]

theorem Framer.Agree.phase (h : Framer.Agree cap f g) :
    Framer.phase cap f = Framer.phase cap g := by
  unfold Framer.phase
  rw [← h.filled]
  split
  · rfl
  · rw [h.expected (Nat.le_of_not_lt ‹_›)]

theorem Framer.Agree.ovf (h : Framer.Agree cap f g) : Framer.ovf cap f = Framer.ovf cap g := by
  simp only [Framer.ovf, h.phase]

theorem Framer.Agree.live (h : Framer.Agree cap f g) : Framer.live cap f = Framer.live cap g := by
  simp only [Framer.live, h.ovf, h.filled]

theorem Framer.Agree.stat (h : Framer.Agree cap f g) (e : Event) :
    Framer.stat cap f e = Framer.stat cap g e := by
  simp only [Framer.stat, h.ovf]

theorem Framer.four_le_of_phase {ph : Phase} (h : Framer.phase cap f = .ok ph) (hne : ph ≠ .header) :
    4 ≤ f.filled.toNat := by
  rcases Framer.phase_ok.mp h with ⟨-, rfl⟩ | ⟨h4, -⟩
  · exact absurd rfl hne
  · exact h4

theorem Framer.Agree.ready (h : Framer.Agree cap f g) :
    Framer.ready cap f = Framer.ready cap g := by
  unfold Framer.ready
  rw [← h.phase]
  split
  · rfl
  · rfl
  · rename_i ph hne hph
    rw [h.remaining (Framer.four_le_of_phase hph hne)]

theorem Framer.Agree.request (h : Framer.Agree cap f g) (avail : Nat) :
    Framer.request cap f avail = Framer.request cap g avail := by
  unfold Framer.request
  rw [← h.phase]
  split
  · rfl
  · rw [h.filled]
  · rename_i hph
    rw [h.remaining (Framer.four_le_of_phase hph (by decide))]
  · rename_i hph
    rw [h.remaining (Framer.four_le_of_phase hph (by decide))]

end agree

/-! ### One accepted byte -/

/-- A range is read the same from two buffers with the same cells in it. -/
theorem Memory.loadRange_congr {cap : Nat} {m m' : Memory} {i n : Nat}
    (h : ∀ k, i ≤ k → k < i + n → Memory.read m k = Memory.read m' k) :
    Memory.loadRange cap m i n = Memory.loadRange cap m' i n := by
  induction n generalizing i with
  | zero => rfl
  | succ n ih =>
    simp only [Memory.loadRange, Memory.load]
    rw [h i (by omega) (by omega), ih fun k h₁ h₂ => h k (by omega) (by omega)]

/-- Of the buffer, the end of a frame asks for the bytes it verifies alone. -/
theorem Framer.complete_congr {cap : Nat} {ph : Phase} {m m' : Memory} {e : Nat} {g : Framer}
    {ev : Event}
    (hm : ph ≠ .overflow → Memory.loadRange cap m 0 e = Memory.loadRange cap m' 0 e)
    (h : Framer.complete cap ph m e = .ok (g, ev)) :
    Framer.complete cap ph m' e = .ok ({ g with buf := m' }, ev) := by
  unfold Framer.complete at h ⊢
  by_cases hc : ph = .overflow ∨ e > cap
  · rw [if_pos hc] at h ⊢
    cases h; rfl
  · rw [if_neg hc] at h ⊢
    rw [← hm fun hph => hc (.inl hph)]
    cases hp : Memory.loadRange cap m 0 e with
    | error x => simp [hp] at h
    | ok p =>
      simp only [hp] at h ⊢
      by_cases hv : verify p = true
      · rw [if_pos hv] at h ⊢
        cases h; rfl
      · rw [if_neg hv] at h ⊢
        cases h; rfl

/-- A frame that goes on is classified by its counts, and one that ends by its bytes too. -/
theorem Framer.classify_congr {cap : Nat} {ph : Phase} {m m' : Memory} {n e : Nat} {g : Framer}
    {ev : Event}
    (hm : n = e → ph ≠ .overflow → Memory.loadRange cap m 0 e = Memory.loadRange cap m' 0 e)
    (h : Framer.classify cap ph m n e = .ok (g, ev)) :
    Framer.classify cap ph m' n e = .ok ({ g with buf := m' }, ev) := by
  unfold Framer.classify at h ⊢
  by_cases hrunt : ph = .header ∧ e < Config.hdr
  · rw [if_pos hrunt] at h ⊢
    cases h; rfl
  rw [if_neg hrunt] at h ⊢
  by_cases hover : ph = .header ∧ e > cap
  · rw [if_pos hover] at h ⊢
    cases h; rfl
  rw [if_neg hover] at h ⊢
  by_cases hn : n = e
  · rw [if_pos hn] at h ⊢
    exact Framer.complete_congr (hm hn) h
  · rw [if_neg hn] at h ⊢
    cases h; rfl

/-- The live cells grow by at most the one written. -/
theorem AcceptCase.live_le {cap : Nat} {f g : Framer} {b : Byte} {e : Event} (hcap : 5 ≤ cap)
    (h : AcceptCase cap f b g e) : Framer.live cap g ≤ Framer.live cap f + 1 := by
  have hg := Framer.live_le_filled cap g
  cases h with
  | header h hb hn he =>
    rw [Framer.live_of_lt (f := f) (by omega)]; omega
  | runt len h hl hc hb hn he => omega
  | enter len h hl hc hb hn he =>
    rw [Framer.live_of_lt (f := f) (by omega)]; omega
  | collect len h hl hc h' hb hn he =>
    by_cases h4 : f.filled.toNat < 4
    · rw [Framer.live_of_lt h4]; omega
    · rw [Framer.live_of_len (f := f) (by omega) (by omega) hl, if_neg (by omega)]; omega
  | finish len p h hl hc h' hb hn hp hr he => omega
  | drain len h hl hc h' hb hn he =>
    have hovf := Framer.ovf_of_write (cap := cap) (by omega) (by omega) hl hb (by omega)
    have hlive : Framer.live cap g = 4 := if_pos (by rw [hovf, decide_eq_true hc])
    have := Framer.four_le_live (cap := cap) h
    omega
  | drained len h hl hc h' hb hn he => omega

/-- Outside Overflow every byte of the frame so far is live. -/
theorem Framer.live_of_phase {cap : Nat} {f : Framer} {ph : Phase}
    (h : Framer.phase cap f = .ok ph) (hne : ph ≠ .overflow) :
    Framer.live cap f = f.filled.toNat := by
  rw [← Framer.writeIndex_eq_live h]
  cases ph with
  | overflow => exact absurd rfl hne
  | header => rfl
  | payload => rfl

/-- Two buffers that agree on the live cells, with the same byte written at the first dead one, agree up to
that one. -/
theorem Framer.Agree.read_write {cap : Nat} {f g : Framer} (h : Framer.Agree cap f g) (b : Byte)
    {k : Nat} (hk : k ≤ Framer.live cap f) :
    Memory.read (Memory.write f.buf (Framer.live cap f) b) k =
      Memory.read (Memory.write g.buf (Framer.live cap f) b) k := by
  rw [Memory.read_write, Memory.read_write]
  split
  · rfl
  · exact h.cells k (by omega)

/-- A byte that one framer accepts is accepted by every framer that agrees with it, in the same way. -/
theorem Framer.Agree.accept {cap : Nat} {f g f' : Framer} {b : Byte} {e : Event}
    (h : Framer.Agree cap f g) (ha : Framer.accept cap f b = .ok (f', e)) :
    Framer.accept cap g b =
      .ok ({ f' with buf := Memory.write g.buf (Framer.live cap f) b }, e) := by
  obtain ⟨ph, hr, hi, hb, hrest⟩ := Framer.accept_ok ha
  obtain ⟨hph, -⟩ := Framer.ready_ok.mp hr
  rw [Framer.writeIndex_eq_live hph] at hi hb
  have hst : Memory.store cap g.buf (g.writeIndex ph) b =
      .ok (Memory.write g.buf (Framer.live cap f) b) := by
    rw [Framer.writeIndex_eq_live (h.phase ▸ hph), ← h.live]
    exact Memory.store_ok.mpr ⟨hi, rfl⟩
  have hcells : ∀ k, k ≤ Framer.live cap f → Memory.read f'.buf k =
      Memory.read (Memory.write g.buf (Framer.live cap f) b) k :=
    fun k hk => hb ▸ h.read_write b hk
  simp only [Framer.accept, ← h.ready, hr, hst, ← h.filled, Config.hdr]
  rcases hrest with ⟨hlt, hg⟩ | ⟨h3, len, hl, hcl⟩
  · rw [if_pos hlt]
    obtain ⟨hf', rfl⟩ := Prod.mk.inj hg
    rw [hf']
    rfl
  · have hlive : 3 ≤ Framer.live cap f := by
      by_cases h4 : f.filled.toNat < 4
      · rw [Framer.live_of_lt h4]; exact h3
      · have := Framer.four_le_live (cap := cap) (f := f) (by omega)
        omega
    have hload : Memory.load cap (Memory.write g.buf (Framer.live cap f) b) 1 = .ok len :=
      Memory.load_ok.mpr ⟨by omega, by rw [← hcells 1 (by omega), hl]⟩
    rw [if_neg (by omega), hload]
    simp only [declaredLength_toNat]
    refine Framer.classify_congr (fun hn hne => Memory.loadRange_congr fun k _ hk => ?_) hcl
    have := Framer.live_of_phase hph hne
    exact hcells k (by omega)

/-- What the same byte makes of two framers that agree agrees again. -/
theorem Framer.Agree.after_accept {cap : Nat} {f g f' : Framer} {b : Byte} {e : Event}
    (hcap : 5 ≤ cap) (h : Framer.Agree cap f g) (ha : Framer.accept cap f b = .ok (f', e)) :
    Framer.Agree cap f' { f' with buf := Memory.write g.buf (Framer.live cap f) b } where
  filled := rfl
  cells k hk := by
    have := (Framer.accept_case ha).live_le hcap
    rw [(Framer.accept_buf ha).2]
    exact h.read_write b (by omega)

/-! ### Two states that differ in dead cells only -/

/-- Two states with a capacity the spec admits (R5), alike but for dead cells of `BUF`. -/
structure State.Alike (s t : State) : Prop where
  capOk : 5 ≤ s.params.cap
  agree : Framer.Agree s.params.cap s.framer t.framer
  rest : { t with framer := s.framer } = s

namespace State.Alike

variable {s t : State}

theorem params (h : s.Alike t) : t.params = s.params := by rw [← h.rest]

theorem resets (h : s.Alike t) : t.resets = s.resets := by rw [← h.rest]

theorem emit (h : s.Alike t) {f g : Framer} (hfg : Framer.Agree s.params.cap f g) (st : Stat) :
    (s.emit f st).Alike (t.emit g st) where
  capOk := h.capOk
  agree := hfg
  rest := by rw [← h.rest]; rfl

theorem answer (h : s.Alike t) (r : Result) : (s.answer r).Alike (t.answer r) where
  capOk := h.capOk
  agree := h.agree
  rest := by rw [← h.rest]; rfl

/-- RESET draws the same free values from both. -/
theorem initialise (h : s.Alike t) : s.initialise.Alike t.initialise where
  capOk := h.capOk
  agree := by
    rw [State.initialise_framer, State.initialise_framer, h.params, h.resets]
    exact ⟨rfl, fun _ _ => rfl⟩
  rest := by rw [← h.rest]; rfl

theorem abortPoll (h : s.Alike t) : s.abortPoll.Alike t.abortPoll := by
  unfold State.abortPoll
  rw [h.params, ← h.agree.stat]
  exact (h.emit h.agree _).answer _

theorem rxStep {b : Byte} {u : State} {e : Event} (h : s.Alike t)
    (hs : Machine.rxStep b s = .ok (u, e)) : ∃ v, Machine.rxStep b t = .ok (v, e) ∧ u.Alike v := by
  obtain ⟨f, ha, rfl⟩ := rxStep_ok.mp hs
  have hagree := h.agree.after_accept h.capOk ha
  have hta := h.agree.accept ha
  rw [← h.params] at hta
  refine ⟨_, rxStep_ok.mpr ⟨_, hta, rfl⟩, ?_⟩
  rw [h.params, ← hagree.stat]
  exact h.emit hagree _

theorem feed {bs : List Byte} {u : State} {es : List Event} (h : s.Alike t)
    (hs : Machine.feed bs s = .ok (u, es)) : ∃ v, Machine.feed bs t = .ok (v, es) ∧ u.Alike v := by
  induction bs generalizing s t es with
  | nil => cases hs; exact ⟨t, rfl, h⟩
  | cons b bs ih =>
    obtain ⟨s₁, e, es₁, h₁, h₂, rfl⟩ := feed_cons_ok.mp hs
    obtain ⟨t₁, ht₁, ha₁⟩ := h.rxStep h₁
    obtain ⟨v, hv, ha⟩ := ih ha₁ h₂
    exact ⟨v, feed_cons_ok.mpr ⟨t₁, e, es₁, ht₁, hv, rfl⟩, ha⟩

/-- A POLL makes the same reads of the same sizes from both, since the size of a request is a view. -/
theorem pollLoop {fuel avail : Nat} {tr : Transport} {u : State} {calls : List ReadCall}
    {outs : List Event} (h : s.Alike t)
    (hs : Machine.pollLoop fuel avail tr s = .ok (u, calls, outs)) :
    ∃ v, Machine.pollLoop fuel avail tr t = .ok (v, calls, outs) ∧ u.Alike v := by
  induction fuel generalizing s t avail tr calls outs with
  | zero => cases hs; exact ⟨t, rfl, h⟩
  | succ fuel ih =>
    rcases pollLoop_succ_ok hs with ⟨rfl, rfl, rfl, rfl⟩ | ⟨hne, req, hreq, hread⟩
    · exact ⟨t, by simp [Machine.pollLoop], h⟩
    · rw [h.agree.request, ← h.params] at hreq
      rcases hread with ⟨h0, rfl, rfl, rfl⟩ | ⟨h0, s₁, es, calls', outs', hf, hl, rfl, rfl⟩
      · exact ⟨t, by simp [Machine.pollLoop, hne, hreq, h0], h⟩
      · obtain ⟨t₁, hf', h₁⟩ := h.feed hf
        obtain ⟨v, hl', hv⟩ := ih h₁ hl
        exact ⟨v, by simp [Machine.pollLoop, hne, hreq, h0, hf', hl', nonPending], hv⟩

/-- An operation that goes on from one state goes on from the other, to states alike again. -/
theorem exec {i : Instr} {u : State} (h : s.Alike t) (hs : Machine.exec i s = .next u) :
    ∃ v, Machine.exec i t = .next v ∧ u.Alike v := by
  cases i with
  | reset => cases hs; exact ⟨_, rfl, h.initialise.answer _⟩
  | rxByte b =>
    obtain ⟨u, e, hr, rfl⟩ := exec_rxByte_next.mp hs
    obtain ⟨v, hr', hv⟩ := h.rxStep hr
    exact ⟨_, exec_rxByte_next.mpr ⟨v, e, hr', rfl⟩, hv.answer _⟩
  | poll tr =>
    cases ha : tr.avail with
    | none =>
      rw [exec_poll_aborted s ha] at hs
      cases hs
      exact ⟨_, exec_poll_aborted t ha, h.abortPoll⟩
    | some avail =>
      obtain ⟨u, calls, outs, hl, rfl⟩ := (exec_poll_next ha).mp hs
      obtain ⟨v, hl', hv⟩ := h.pollLoop hl
      exact ⟨_, (exec_poll_next ha).mpr ⟨v, calls, outs, hl', rfl⟩, hv.answer _⟩
  | checksum bs count =>
    obtain ⟨hc, rfl⟩ := exec_checksum_next.mp hs
    exact ⟨_, exec_checksum_next.mpr ⟨hc, rfl⟩, h.answer _⟩
  | verify p =>
    obtain rfl := exec_verify_next.mp hs
    exact ⟨_, exec_verify_next.mpr rfl, h.answer _⟩
  | serialize ty p =>
    obtain ⟨hp, rfl⟩ := exec_serialize_next.mp hs
    exact ⟨_, exec_serialize_next.mpr ⟨hp, rfl⟩, h.answer _⟩
  | buildRequest =>
    obtain ⟨hp, rfl⟩ := exec_buildRequest_next.mp hs
    refine ⟨_, exec_buildRequest_next.mpr ⟨h.params ▸ hp, rfl⟩, ?_⟩
    rw [h.params]
    exact h.answer _
  | pkt ty p c =>
    obtain ⟨hp, u, es, hf, rfl⟩ := exec_pkt_next.mp hs
    obtain ⟨v, hf', hv⟩ := h.feed hf
    exact ⟨_, exec_pkt_next.mpr ⟨hp, v, es, hf', rfl⟩, hv.answer _⟩

end State.Alike

/-- From a sound state every operation inside the contract goes on (R80, R140). -/
theorem exec_total {i : Instr} {s : State} (hI : s.Inv) (hw : WellFormed i = true) :
    ∃ t, exec i s = .next t := by
  cases i with
  | reset => exact ⟨_, rfl⟩
  | rxByte b =>
    obtain ⟨t, e, h, -⟩ := rxStep_total hI b
    exact ⟨_, exec_rxByte_next.mpr ⟨t, e, h, rfl⟩⟩
  | poll tr =>
    cases ha : tr.avail with
    | none => exact ⟨_, exec_poll_aborted s ha⟩
    | some avail =>
      obtain ⟨t, calls, es, h, -⟩ := pollLoop_total (t := tr) hI (le_refl avail)
      exact ⟨_, (exec_poll_next ha).mpr ⟨t, calls, _, h, rfl⟩⟩
  | checksum bs count => exact ⟨_, exec_checksum_next.mpr ⟨of_decide_eq_true hw, rfl⟩⟩
  | verify p => exact ⟨_, exec_verify_next.mpr rfl⟩
  | serialize ty p => exact ⟨_, exec_serialize_next.mpr ⟨of_decide_eq_true hw, rfl⟩⟩
  | buildRequest => exact ⟨_, exec_buildRequest_next.mpr ⟨hI.instanceOk.2, rfl⟩⟩
  | pkt ty p c =>
    obtain ⟨t, es, h, -⟩ := feed_total hI (encodePkt ty p c)
    exact ⟨_, exec_pkt_next.mpr ⟨of_decide_eq_true hw, t, es, h, rfl⟩⟩

/-- Settles O18: an operation goes on from the one sound state, and so, alike, from the other. -/
theorem deadCellsAreNeverObserved : Obligations.DeadCellsAreNeverObserved := by
  intro i s t hs _ hw hagree hrest
  have halike : s.Alike t := ⟨hs.instanceOk.1, hagree, hrest⟩
  obtain ⟨u, hu⟩ := exec_total hs hw
  obtain ⟨v, hv, hout⟩ := halike.exec hu
  exact ⟨u, v, hu, hv, hout.agree, hout.rest⟩

end Sys2Proof.Machine
end

section
/-! A packet is received byte by byte (spec R40, R44, R60, R74): a fed list of bytes and a run of RX_BYTE over
them differ in what they hand back alone. -/

namespace Sys2Proof.Machine

/-! ### No step of the framer reads the results -/

theorem rxStep_answer {b : Byte} {s t : State} {e : Event} (h : rxStep b s = .ok (t, e))
    (r : Result) : rxStep b (s.answer r) = .ok (t.answer r, e) := by
  obtain ⟨f, ha, rfl⟩ := rxStep_ok.mp h
  exact rxStep_ok.mpr ⟨f, ha, rfl⟩

theorem feed_answer {bs : List Byte} {s t : State} {es : List Event} (h : feed bs s = .ok (t, es))
    (r : Result) : feed bs (s.answer r) = .ok (t.answer r, es) := by
  induction bs generalizing s es with
  | nil => cases h; rfl
  | cons b bs ih =>
    obtain ⟨s₁, e, es₁, h₁, h₂, rfl⟩ := feed_cons_ok.mp h
    exact feed_cons_ok.mpr ⟨s₁.answer r, e, es₁, rxStep_answer h₁ r, ih h₂, rfl⟩

/-! ### A fed list of bytes as a run -/

theorem execAll_cons_of_next {i : Instr} {is : List Instr} {s t : State} (h : exec i s = .next t) :
    execAll (i :: is) s = execAll is t := by
  simp only [execAll, h]

/-- A run of RX_BYTE does what feeding its bytes does, and hands back the outcome of each. -/
theorem execAll_rxByte_of_feed {bs : List Byte} {s t : State} {es : List Event}
    (h : feed bs s = .ok (t, es)) :
    execAll (bs.map Instr.rxByte) s =
      .next { t with results := t.results ++ es.map Result.event } := by
  induction bs generalizing s t es with
  | nil => cases h; simp [execAll]
  | cons b bs ih =>
    obtain ⟨s₁, e, es₁, h₁, h₂, rfl⟩ := feed_cons_ok.mp h
    calc execAll ((b :: bs).map Instr.rxByte) s
      _ = execAll (bs.map Instr.rxByte) (s₁.answer (.event e)) :=
        execAll_cons_of_next (exec_rxByte_next.mpr ⟨s₁, e, h₁, rfl⟩)
      _ = .next { t with results := (t.results ++ [.event e]) ++ es₁.map Result.event } :=
        ih (feed_answer h₂ (.event e))
      _ = .next { t with results := t.results ++ (e :: es₁).map Result.event } := by
        rw [List.append_assoc]; rfl

/-- What `P_STAT` shows of a fed list of bytes is the list of its outcomes. -/
theorem newEvents_of_feed {bs : List Byte} {s t : State} {es : List Event}
    (h : feed bs s = .ok (t, es)) : s.newEvents t = es := by
  obtain ⟨-, -, -, -, -, -, new, hstat, hnew⟩ := feed_frame h
  rw [State.newEvents, hstat, List.drop_left, hnew]

/-- Settles O44: PKT feeds the bytes of the packet, which a sound state takes, and the run of RX_BYTE over
them leaves everything but the results as feeding them does. -/
theorem packetIsReceivedByteByByte : Obligations.PacketIsReceivedByteByByte := by
  intro s ty c payload hI hlen
  obtain ⟨t, es, hfeed, -⟩ := feed_total hI (encodePkt ty payload c)
  obtain ⟨hparams, hresets, hpending, hresults, -⟩ := feed_frame hfeed
  refine ⟨t.answer (.events es), { t with results := t.results ++ es.map Result.event },
    exec_pkt_next.mpr ⟨hlen, t, es, hfeed, rfl⟩, execAll_rxByte_of_feed hfeed,
    rfl, rfl, rfl, hparams, hresets, hpending, ?_⟩
  show t.results ++ [.events es] = s.results ++ [.events (s.newEvents t)]
  rw [hresults, newEvents_of_feed hfeed]

end Sys2Proof.Machine
end

section
/-! The encoding family: the decoder and the encoder are inverse on the contract (spec R60, R61, R68, R73),
the fields of a packet in the bits of a word (R61), an offered word run next, and what is refused (U10, U14). -/

namespace Sys2Proof.Machine

/-! ### The contract -/

@[simp] theorem wellFormed_checksum {bytes : List Byte} {count : Nat} :
    WellFormed (.checksum bytes count) = true ↔ count ≤ bytes.length := decide_eq_true_iff

@[simp] theorem wellFormed_serialize {ty : Byte} {payload : List Byte} :
    WellFormed (.serialize ty payload) = true ↔ payload.length ≤ 255 := decide_eq_true_iff

@[simp] theorem wellFormed_pkt {ty c : Byte} {payload : List Byte} :
    WellFormed (.pkt ty payload c) = true ↔ payload.length ≤ 255 := decide_eq_true_iff

/-! ### What the decoder reads at each checked port -/

theorem decode_csum_eq_ok {bytes : List Byte} {count : Nat} {i : Instr} :
    decode (.csum bytes count) = .ok i ↔ count ≤ bytes.length ∧ i = .checksum bytes count := by
  simp only [decode]
  split <;> simp [*, eq_comm]

theorem decode_ser_cons_eq_ok {ty : Byte} {payload : List Byte} {i : Instr} :
    decode (.ser (ty :: payload)) = .ok i ↔ payload.length ≤ 255 ∧ i = .serialize ty payload := by
  simp only [decode]
  split <;> simp [*, eq_comm]

/-- The bytes of a packet are never taken for the one byte of RX_BYTE: there are at least three. -/
theorem decode_encodePkt {payload : List Byte} (ty c : Byte) (h : payload.length ≤ 255) :
    decode (.rx (encodePkt ty payload c)) = .ok (.pkt ty payload c) := by
  have hpkt : decodePkt (encodePkt ty payload c) = some (ty, payload, c) :=
    decodePkt_eq_some.mpr ⟨h, rfl⟩
  unfold encodePkt at hpkt ⊢
  simp only [decode, hpkt]

/-! ### The decoder and the encoder -/

/-- Settles O10: the contract on a row's operands is the check its port makes; the other rows are decoded
unchecked. -/
theorem decodeOfEncodeIsTheInstruction : Obligations.DecodeOfEncodeIsTheInstruction := by
  intro i hw
  cases i with
  | reset => rfl
  | rxByte b => rfl
  | poll t => rfl
  | checksum bytes count => exact decode_csum_eq_ok.mpr ⟨wellFormed_checksum.mp hw, rfl⟩
  | verify p => rfl
  | serialize ty payload => exact decode_ser_cons_eq_ok.mpr ⟨wellFormed_serialize.mp hw, rfl⟩
  | buildRequest => rfl
  | pkt ty payload c => exact decode_encodePkt ty c (wellFormed_pkt.mp hw)

/-- Settles O11: what each port accepts is the encoding of an instruction inside the contract. -/
theorem decodedInvocationIsTheEncodedOne : Obligations.DecodedInvocationIsTheEncodedOne := by
  intro r i h
  cases r with
  | rst => cases h; exact ⟨rfl, rfl⟩
  | rx data =>
    rcases decode_rx_ok h with ⟨b, rfl, rfl⟩ | ⟨ty, payload, c, rfl, hlen, rfl⟩
    · exact ⟨rfl, rfl⟩
    · exact ⟨wellFormed_pkt.mpr hlen, rfl⟩
  | poll t => cases h; exact ⟨rfl, rfl⟩
  | csum bytes count =>
    obtain ⟨hcount, rfl⟩ := decode_csum_eq_ok.mp h
    exact ⟨wellFormed_checksum.mpr hcount, rfl⟩
  | verify p => cases h; exact ⟨rfl, rfl⟩
  | ser data =>
    cases data with
    | nil => cases h
    | cons ty payload =>
      obtain ⟨hlen, rfl⟩ := decode_ser_cons_eq_ok.mp h
      exact ⟨wellFormed_serialize.mpr hlen, rfl⟩
  | build => cases h; exact ⟨rfl, rfl⟩

/-! ### Words -/

theorem decodeTableWord_eq_some {nbits w : Nat} {i : Instr} :
    decodeTableWord nbits w = some i ↔ decode (.rx (tableBytes nbits w)) = .ok i := by
  unfold decodeTableWord
  split <;> simp [*]

/-- Settles O9: the offered bytes stand first in `pending`, and the step fetches and decodes them. -/
theorem offeredWordRunsNext : Obligations.OfferedWordRunsNext :=
  fun _ _ _ _ h => step_of_fetch_of_decode (State.fetch_of_pending rfl) (decodeTableWord_eq_some.mp h)

theorem wordBytes_succ_last (w i n : Nat) :
    wordBytes w i (n + 1) = wordBytes w i n ++ [wordByte w (i + n)] := by
  induction n generalizing i with
  | zero => rfl
  | succ n ih =>
    calc wordBytes w i (n + 2) = wordByte w i :: wordBytes w (i + 1) (n + 1) := rfl
      _ = wordByte w i :: (wordBytes w (i + 1) n ++ [wordByte w (i + 1 + n)]) := by rw [ih]
      _ = wordBytes w i (n + 1) ++ [wordByte w (i + (n + 1))] := by
        rw [Nat.add_right_comm, Nat.add_assoc]; rfl

/-- The bytes of a word, as many as its second byte declares, are those of one packet (R61). -/
theorem wordBytes_eq_encodePkt (w : Nat) :
    wordBytes w 0 ((wordByte w 1).toNat + 3) =
      encodePkt (wordByte w 0) (wordBytes w 2 (wordByte w 1).toNat)
        (wordByte w (2 + (wordByte w 1).toNat)) := by
  rw [encodePkt, wordBytes_length, BitVec.ofNat_toNat, BitVec.setWidth_eq, ← wordBytes_succ_last]
  rfl

theorem decodeTableWord_pkt {nbits w : Nat} (hn : 8 < nbits) (hw : w < 2 ^ nbits) :
    decodeTableWord nbits w =
      some (.pkt (wordByte w 0) (wordBytes w 2 (wordByte w 1).toNat)
        (wordByte w (2 + (wordByte w 1).toNat))) := by
  have hbytes : tableBytes nbits w = wordBytes w 0 ((wordByte w 1).toNat + 3) := by
    simp only [tableBytes, Nat.mod_eq_of_lt hw, if_neg (Nat.not_le_of_lt hn)]
  have hlen : (wordBytes w 2 (wordByte w 1).toNat).length ≤ 255 := by
    have := (wordByte w 1).isLt
    rw [wordBytes_length]; omega
  rw [decodeTableWord_eq_some, hbytes, wordBytes_eq_encodePkt]
  exact decode_encodePkt _ _ hlen

/-- Settles O13: the word is read as the packet of its bytes, and byte `k` of a word is its eight bits from
`8k`. -/
theorem packetFieldsStandAtTheirBits : Obligations.PacketFieldsStandAtTheirBits := by
  intro nbits w hn hw
  refine ⟨_, _, _, decodeTableWord_pkt hn hw, ?_, ?_, fun i hi => ?_, ?_⟩
  · rw [wordByte_toNat, Nat.mul_zero, pow_zero, Nat.div_one]
  · rw [wordBytes_length, wordByte_toNat]
  · have hbyte := wordBytes_getElem? (w := w) 2 (wordBytes_length w 2 _ ▸ hi)
    rw [(List.getElem_eq_iff hi).mpr hbyte, wordByte_toNat]
  · rw [wordBytes_length, wordByte_toNat]

/-- Settles O12: each invocation is decoded as it stands; the word holds the bytes of the packet, lowest
first. -/
theorem specWordsDecodeToTheirRows : Obligations.SpecWordsDecodeToTheirRows :=
  ⟨rfl, rfl, rfl, rfl, rfl, rfl, rfl, rfl, rfl⟩

/-! ### Refusals -/

theorem exec_checksum_refused {bytes : List Byte} {count : Nat} (s : State) (h : ¬ count ≤ bytes.length) :
    exec (.checksum bytes count) s = .refused .countBeyondData := if_neg h

theorem exec_serialize_refused {payload : List Byte} (s : State) (ty : Byte) (h : ¬ payload.length ≤ 255) :
    exec (.serialize ty payload) s = .refused .payloadTooLong := if_neg h

theorem exec_pkt_refused {payload : List Byte} (s : State) (ty c : Byte) (h : ¬ payload.length ≤ 255) :
    exec (.pkt ty payload c) s = .refused .notAPacket := if_neg h

/-- Only the three rows with a bound on their operands have instructions outside the contract. -/
theorem exec_refused_of_not_wellFormed {i : Instr} (h : WellFormed i = false) (s : State) :
    ∃ x, exec i s = .refused x := by
  cases i with
  | checksum bytes count => exact ⟨_, exec_checksum_refused s (of_decide_eq_false h)⟩
  | serialize ty payload => exact ⟨_, exec_serialize_refused s ty (of_decide_eq_false h)⟩
  | pkt ty payload c => exact ⟨_, exec_pkt_refused s ty c (of_decide_eq_false h)⟩
  | reset | rxByte | poll | verify | buildRequest => cases h

/-- Settles O14: each meaning checks the contract first, and refuses under its own name. -/
theorem illFormedOperationIsRefused : Obligations.IllFormedOperationIsRefused := by
  refine ⟨fun s bytes count h => ?_, fun s ty payload h => ?_, fun s ty c payload h => ?_,
    fun i => exec_refused_of_not_wellFormed⟩
  · exact exec_checksum_refused s (Nat.not_le_of_lt h)
  · exact exec_serialize_refused s ty (Nat.not_le_of_lt h)
  · exact exec_pkt_refused s ty c (Nat.not_le_of_lt h)

end Sys2Proof.Machine
end

section
/-! One byte at the machine, in every state and in a sound one: what RX_BYTE leaves, by the class of the frame
(spec R80 to R90, R148), and what the sink gets (R91). -/

namespace Sys2Proof.Machine

/-! ### Every operation completes -/

/-- Every operation that goes on keeps a sound state sound. -/
theorem exec_inv {i : Instr} {s t : State} (hI : s.Inv) (h : exec i s = .next t) : t.Inv := by
  have hkept : Framer.Inv s.params.cap t.framer :=
    exec_keeps_framer (Q := Framer.Inv s.params.cap) (Framer.inv_initial _)
      (fun f g b e ha hf => AcceptCase.inv hI.instanceOk.1 hf (Framer.accept_case ha)) h hI.framerOk
  have hp := exec_params h
  exact ⟨hp ▸ hI.instanceOk, hp ▸ hkept⟩

/-- Settles O4: an operation inside the contract goes on, and what goes on stays sound. -/
theorem everyOperationCompletes : Obligations.EveryOperationCompletes := by
  intro i s hI hw
  obtain ⟨t, h⟩ := exec_total hI hw
  exact ⟨t, h, exec_inv hI h⟩

/-! ### RX_BYTE in every state -/

/-- The machine after an RX_BYTE that leaves the framer `g` with outcome `e`. -/
def State.took (s : State) (g : Framer) (e : Event) : State :=
  (s.emit g (Framer.stat s.params.cap g e)).answer (.event e)

@[simp] theorem State.newEvents_took (s : State) (g : Framer) (e : Event) :
    s.newEvents (s.took g e) = [e] := by
  simp [State.newEvents, State.took]

theorem exec_rxByte_accept {s t : State} {b : Byte} :
    exec (.rxByte b) s = .next t ↔
      ∃ g e, Framer.accept s.params.cap s.framer b = .ok (g, e) ∧ t = s.took g e := by
  rw [exec_rxByte_next]
  constructor
  · rintro ⟨u, e, hr, rfl⟩
    obtain ⟨g, ha, rfl⟩ := rxStep_ok.mp hr
    exact ⟨g, e, ha, rfl⟩
  · rintro ⟨g, e, ha, rfl⟩
    exact ⟨_, e, rxStep_ok.mpr ⟨g, ha, rfl⟩, rfl⟩

/-- Everything RX_BYTE leaves, from where the byte is stored and what the count becomes. -/
theorem State.rxGives_took {s : State} {g : Framer} {b : Byte} {e : Event} {w n : Nat}
    (hb : g.buf = Memory.write s.framer.buf w b) (hn : g.filled.toNat = n) :
    RxGives s b w n e (s.took g e) where
  count := hn
  cells i := by
    show Memory.read g.buf i = _
    rw [hb, Memory.read_write]
    exact if_congr eq_comm rfl rfl
  params := rfl
  resets := rfl
  pending := rfl
  stat := rfl
  sink := rfl
  results := rfl

/-- A frame goes on with the count one up, or ends with the count 0 (R82). -/
theorem AcceptCase.count {cap : Nat} {f g : Framer} {b : Byte} {e : Event}
    (h : AcceptCase cap f b g e) :
    (e = .pending ∧ g.filled.toNat = f.filled.toNat + 1) ∨ (e ≠ .pending ∧ g.filled.toNat = 0) := by
  cases h with
  | header h hb hn he | enter len h hl hc hb hn he | collect len h hl hc h' hb hn he
  | drain len h hl hc h' hb hn he => exact .inl ⟨he, by omega⟩
  | finish len p h hl hc h' hb hn hp hr he =>
    refine .inr ⟨?_, hn⟩
    rw [he, verdict]
    split <;> simp
  | runt len h hl hc hb hn he | drained len h hl hc h' hb hn he =>
    exact .inr ⟨by simp [he], hn⟩

/-- Settles O27: the one outcome shown tells whether the count goes up or to 0. -/
theorem countGoesUpByOneOrToZero : Obligations.CountGoesUpByOneOrToZero := by
  intro s t b h
  obtain ⟨g, e, ha, rfl⟩ := exec_rxByte_accept.mp h
  refine ⟨e, s.newEvents_took g e, fun he => ?_, fun he => ?_⟩
  · rcases (Framer.accept_case ha).count with ⟨-, hn⟩ | ⟨hne, -⟩
    · exact hn
    · exact absurd he hne
  · rcases (Framer.accept_case ha).count with ⟨he', -⟩ | ⟨-, hn⟩
    · exact absurd he' he
    · exact hn

/-- The same, read off the outcome shown: what ends a frame leaves the count 0. -/
theorem exec_rxByte_count_zero {s t : State} {b : Byte} (h : exec (.rxByte b) s = .next t)
    (hne : s.newEvents t ≠ [.pending]) : t.count = 0 := by
  obtain ⟨e, he, -, hzero⟩ := countGoesUpByOneOrToZero s t b h
  exact hzero fun hp => hne (hp ▸ he)

/-- Settles O26: the byte is stored at the index of its phase, where `BUF` must have a cell. -/
theorem byteIsWrittenAtOneIndexOnly : Obligations.ByteIsWrittenAtOneIndexOnly := by
  intro s t b h
  obtain ⟨g, e, ha, rfl⟩ := exec_rxByte_accept.mp h
  obtain ⟨ph, hready, hw, hb, -⟩ := Framer.accept_ok ha
  obtain ⟨hph, -⟩ := Framer.ready_ok.mp hready
  have hgives := State.rxGives_took (e := e) hb rfl
  refine ⟨ph, s.framer.writeIndex ph, hph, ?_, ?_, hw, ?_, fun i hi => ?_, rfl, rfl, rfl, _, rfl, rfl⟩
  · rintro rfl; rfl
  · intro hne
    cases ph with
    | overflow => exact absurd rfl hne
    | header => rfl
    | payload => rfl
  · rw [hgives.cells, if_pos rfl]
  · rw [hgives.cells, if_neg hi]

/-! ### What the sink gets -/

theorem verdict_eq_delivered {p q : List Byte} : verdict p = .delivered q ↔ verify p = true ∧ p = q := by
  unfold verdict
  split <;> simp [*]

theorem Event.mem_packets {e : Event} {p : List Byte} : p ∈ e.packets ↔ e = .delivered p := by
  cases e <;> simp [Event.packets, eq_comm]

/-- A packet that fits: it verifies, and has the declared length, 4 bytes at least and at most `CAP`. -/
def FittingPacket (cap : Nat) (p : List Byte) : Prop :=
  verify p = true ∧ 4 ≤ p.length ∧ p.length ≤ cap ∧ ∃ len, p[1]? = some len ∧ p.length = len.toNat + 3

/-- What a byte delivers is a packet that fits, and it stands in the buffer. -/
theorem AcceptCase.delivered {cap : Nat} {f g : Framer} {b : Byte} {e : Event} {p : List Byte}
    (h : AcceptCase cap f b g e) (hd : e = .delivered p) :
    FittingPacket cap p ∧ ∀ k, k < p.length → p[k]? = Memory.read g.buf k := by
  subst hd
  cases h with
  | finish len q h hl hc h' hb hn hp hr he =>
    obtain ⟨hv, rfl⟩ := verdict_eq_delivered.mp he.symm
    have hlen : q[1]? = some len := by
      rw [hr 1 (by omega), hb, Memory.read_write_other (by omega), hl]
    exact ⟨⟨hv, by omega, by omega, len, hlen, hp⟩, hr⟩
  | header _ _ _ he | runt _ _ _ _ _ _ he | enter _ _ _ _ _ _ he | collect _ _ _ _ _ _ _ he
  | drain _ _ _ _ _ _ _ he | drained _ _ _ _ _ _ _ he => cases he

theorem feed_packets_fit {bs : List Byte} {s t : State} {es : List Event}
    (h : feed bs s = .ok (t, es)) : ∀ p ∈ es.flatMap Event.packets, FittingPacket s.params.cap p := by
  induction bs generalizing s es with
  | nil => cases h; simp
  | cons b bs ih =>
    obtain ⟨s₁, e, es₁, h₁, h₂, rfl⟩ := feed_cons_ok.mp h
    obtain ⟨g, ha, rfl⟩ := rxStep_ok.mp h₁
    intro p hp
    rw [List.flatMap_cons, List.mem_append, Event.mem_packets] at hp
    rcases hp with hp | hp
    · exact ((Framer.accept_case ha).delivered hp).1
    · exact ih h₂ p hp

/-- Settles O17: an operation shows and delivers what the bytes it feeds do, and a byte delivers the frame
that stands in `BUF`. -/
theorem sinkGetsExactlyTheDeliveredPackets : Obligations.SinkGetsExactlyTheDeliveredPackets := by
  constructor
  · intro i s t h
    rcases exec_case h with ⟨-, rfl⟩ | ⟨tr, -, rfl⟩ | ⟨bs, es, u, r, hf, rfl⟩
    · exact ⟨[], by simp, by simp, by simp⟩
    · exact ⟨[Framer.stat s.params.cap s.framer (.aborted .transportUnavailable)], rfl, rfl,
        by simp [Event.packets]⟩
    · obtain ⟨-, -, -, -, -, hsink, new, hstat, rfl⟩ := feed_frame hf
      have hpackets : (new.map Stat.event).flatMap Event.packets =
          new.flatMap fun st => st.event.packets := List.flatMap_map _ _ _
      rw [hpackets] at hsink
      exact ⟨new, hstat, hsink, hpackets ▸ feed_packets_fit hf⟩
  · intro s t b h
    refine ⟨fun p hp k hk => ?_, exec_rxByte_count_zero h⟩
    obtain ⟨g, e, ha, rfl⟩ := exec_rxByte_accept.mp h
    rw [State.newEvents_took] at hp
    obtain ⟨-, hcells⟩ := (Framer.accept_case ha).delivered (List.singleton_inj.mp hp)
    exact (hcells k hk).symm

/-! ### RX_BYTE in a sound state, by the class of the frame -/

section classes
variable {s : State} {g : Framer} {b len : Byte} {e : Event}

/-- The first three bytes. -/
theorem AcceptCase.of_lt_three (h : AcceptCase s.params.cap s.framer b g e) (h3 : s.count < 3) :
    g.buf = Memory.write s.framer.buf s.count b ∧ g.filled.toNat = s.count + 1 ∧ e = .pending := by
  simp only [State.count] at h3 ⊢
  cases h with
  | header _ hb hn he => exact ⟨hb, hn, he⟩
  | _ => omega

/-- The fourth byte of a frame that declares no payload. -/
theorem AcceptCase.of_runt (h : AcceptCase s.params.cap s.framer b g e)
    (hcap : 5 ≤ s.params.cap) (h3 : s.count = 3) (hl : s.cell 1 = some len) (h0 : len.toNat = 0) :
    g.buf = Memory.write s.framer.buf 3 b ∧ g.filled.toNat = 0 ∧ e = .discarded .runtPacket := by
  simp only [State.count] at h3
  cases h with
  | header => omega
  | runt _ _ _ _ hb hn he => exact ⟨hb, hn, he⟩
  | enter _ _ hl' | collect _ _ hl' | finish _ _ _ hl' | drain _ _ hl' | drained _ _ hl' =>
    cases hl.symm.trans hl'
    omega

/-- A byte of a frame that cannot fit, from the fourth on. -/
theorem AcceptCase.of_oversized (h : AcceptCase s.params.cap s.framer b g e)
    (hcap : 5 ≤ s.params.cap) (h3 : 3 ≤ s.count) (hl : s.cell 1 = some len)
    (hc : s.params.cap < len.toNat + 3) :
    g.buf = Memory.write s.framer.buf (min s.count 4) b ∧
      ((s.count + 1 < len.toNat + 3 ∧ g.filled.toNat = s.count + 1 ∧ e = .pending) ∨
       (s.count + 1 = len.toNat + 3 ∧ g.filled.toNat = 0 ∧ e = .discarded .oversizedPacket)) := by
  simp only [State.count] at h3 ⊢
  cases h with
  | header => omega
  | runt _ _ hl' | collect _ _ hl' | finish _ _ _ hl' =>
    cases hl.symm.trans hl'
    omega
  | enter _ h _ _ hb hn he => exact ⟨by rw [hb, h]; rfl, .inl ⟨by omega, by omega, he⟩⟩
  | drain _ h hl' _ h' hb hn he =>
    cases hl.symm.trans hl'
    exact ⟨by rw [hb, Nat.min_eq_right h], .inl ⟨h', hn, he⟩⟩
  | drained _ h hl' _ h' hb hn he =>
    cases hl.symm.trans hl'
    exact ⟨by rw [hb, Nat.min_eq_right h], .inr ⟨h', hn, he⟩⟩

/-- A byte of a frame that fits, from the fourth on. -/
theorem AcceptCase.of_fits (h : AcceptCase s.params.cap s.framer b g e) (h3 : 3 ≤ s.count)
    (hl : s.cell 1 = some len) (h0 : 0 < len.toNat) (hc : len.toNat + 3 ≤ s.params.cap) :
    g.buf = Memory.write s.framer.buf s.count b ∧
      ((s.count + 1 < len.toNat + 3 ∧ g.filled.toNat = s.count + 1 ∧ e = .pending) ∨
       (s.count + 1 = len.toNat + 3 ∧ g.filled.toNat = 0 ∧
        ∃ p, p.length = len.toNat + 3 ∧ (∀ k, k < p.length → p[k]? = Memory.read g.buf k) ∧
          e = verdict p)) := by
  simp only [State.count] at h3 ⊢
  cases h with
  | header => omega
  | runt _ _ hl' | enter _ _ hl' | drain _ _ hl' | drained _ _ hl' =>
    cases hl.symm.trans hl'
    omega
  | collect _ _ hl' _ h' hb hn he =>
    cases hl.symm.trans hl'
    exact ⟨hb, .inl ⟨h', hn, he⟩⟩
  | finish _ p _ hl' _ h' hb hn hp hr he =>
    cases hl.symm.trans hl'
    exact ⟨hb, .inr ⟨h', hn, p, hp, hr, he⟩⟩

/-- The phase after a byte stored past the length byte. -/
theorem Framer.phase_of_write {cap w : Nat} {f : Framer} (hc : 1 < cap) (h4 : 4 ≤ g.filled.toNat)
    (hl : Memory.read f.buf 1 = some len) (hb : g.buf = Memory.write f.buf w b) (hw : w ≠ 1) :
    Framer.phase cap g = .ok (if len.toNat + 3 > cap then .overflow else .payload) :=
  Framer.phase_of_len hc h4 (by rw [hb, Memory.read_write_other hw, hl])

theorem Framer.phase_of_zero {cap : Nat} (h : g.filled.toNat = 0) :
    Framer.phase cap g = .ok .header :=
  Framer.phase_header (by omega)

end classes

/-- A sound state takes every byte in one of the ways of R90. -/
theorem State.Inv.exec_rxByte {s : State} (hI : s.Inv) (b : Byte) :
    ∃ g e, exec (.rxByte b) s = .next (s.took g e) ∧ AcceptCase s.params.cap s.framer b g e := by
  obtain ⟨g, e, ha, hc⟩ := Framer.accept_cases hI.instanceOk.1 hI.framerOk b
  exact ⟨g, e, exec_rxByte_accept.mpr ⟨g, e, ha, rfl⟩, hc⟩

theorem State.Inv.five_le_cap {s : State} (hI : s.Inv) : 5 ≤ s.params.cap := hI.instanceOk.1

/-- Outside the Header phase the frame declares a payload of 2 bytes at least, and its end is ahead. -/
theorem State.Inv.tracked_len {s : State} {len : Byte} (hI : s.Inv) (h4 : 4 ≤ s.count)
    (hl : s.cell 1 = some len) : 2 ≤ len.toNat ∧ s.count < len.toNat + 3 := by
  obtain ⟨len', hl', h2, hlt⟩ := hI.tracked h4
  cases hl.symm.trans hl'
  exact ⟨h2, hlt⟩

/-- Settles O20: the only row of R90 below `FILLED = 3`. -/
theorem headerBytesAreStoredAndPending : Obligations.HeaderBytesAreStoredAndPending := by
  intro s b hI h3
  obtain ⟨g, e, hx, hcase⟩ := hI.exec_rxByte b
  obtain ⟨hb, hn, rfl⟩ := hcase.of_lt_three h3
  refine ⟨_, hx, State.rxGives_took hb hn, Framer.phase_header ?_⟩
  show g.filled.toNat < 4
  omega

/-- Settles O21: by the class of the frame, the fourth byte being the last of a runt and of a frame with
`EXPECTED = 4`. -/
theorem fourthByteClassifiesTheFrame : Obligations.FourthByteClassifiesTheFrame := by
  intro s b len hI h3 hl
  have hcap := hI.five_le_cap
  obtain ⟨g, e, hx, hcase⟩ := hI.exec_rxByte b
  refine ⟨fun hrunt => ?_, fun hover => ?_, fun hfour => ?_, fun hfive hfits => ?_⟩
  · obtain ⟨hb, hn, rfl⟩ := hcase.of_runt hcap h3 hl (by omega)
    exact ⟨_, hx, State.rxGives_took hb hn⟩
  · obtain ⟨hb, ⟨-, hn, rfl⟩ | ⟨hend, -⟩⟩ := hcase.of_oversized hcap h3.ge hl hover
    · rw [h3] at hb hn
      have hph := Framer.phase_of_write hI.one_lt_cap hn.ge hl hb (by decide)
      exact ⟨_, hx, State.rxGives_took hb hn, by rw [if_pos hover] at hph; exact hph⟩
    · omega
  · obtain ⟨hb, ⟨hlt, -⟩ | ⟨-, hn, p, hp, hr, rfl⟩⟩ := hcase.of_fits h3.ge hl (by omega) (by omega)
    · omega
    · rw [h3] at hb
      exact ⟨_, p, hx, by omega, fun k hk => (hr k hk).symm, State.rxGives_took hb hn⟩
  · obtain ⟨hb, ⟨-, hn, rfl⟩ | ⟨hend, -⟩⟩ := hcase.of_fits h3.ge hl (by omega) hfits
    · rw [h3] at hb hn
      have hph := Framer.phase_of_write hI.one_lt_cap hn.ge hl hb (by decide)
      exact ⟨_, hx, State.rxGives_took hb hn, by rw [if_neg (by omega)] at hph; exact hph⟩
    · omega

/-- Settles O22: the rows of a frame that fits, past its header. -/
theorem payloadBytesAreStoredUntilTheLast : Obligations.PayloadBytesAreStoredUntilTheLast := by
  intro s b len hI h4 hl hfits
  obtain ⟨h2, -⟩ := hI.tracked_len h4 hl
  obtain ⟨g, e, hx, hcase⟩ := hI.exec_rxByte b
  have hone := (exec_rxByte_cell_one hx h4).trans hl
  obtain ⟨hb, hrest⟩ := hcase.of_fits (le_trans (by decide) h4) hl (by omega) hfits
  refine ⟨fun hlt => ?_, fun hend => ?_⟩
  · obtain ⟨-, hn, rfl⟩ | ⟨hend, -⟩ := hrest
    · have hph := Framer.phase_of_len hI.one_lt_cap (f := g) (by omega) hone
      exact ⟨_, hx, State.rxGives_took hb hn, by rw [if_neg (by omega)] at hph; exact hph, hone⟩
    · omega
  · obtain ⟨hlt, -⟩ | ⟨-, hn, p, hp, hr, rfl⟩ := hrest
    · omega
    · exact ⟨_, p, hx, State.rxGives_took hb hn, hp, fun k hk => (hr k hk).symm, hone,
        Framer.phase_of_zero hn⟩

/-- Settles O23: the last row of a frame that fits, with both verdicts. -/
theorem completingByteVerifiesAndEndsTheFrame :
    Obligations.CompletingByteVerifiesAndEndsTheFrame := by
  intro s b len hI h3 hl hfits hend
  obtain ⟨g, e, hx, hcase⟩ := hI.exec_rxByte b
  obtain ⟨hb, ⟨hlt, -⟩ | ⟨-, hn, p, hp, hr, rfl⟩⟩ := hcase.of_fits h3 hl (by omega) hfits
  · omega
  · have hgives := State.rxGives_took (e := verdict p) hb hn
    refine ⟨_, p, hx, hp, fun k hk => (hr k hk).symm, fun hv => ?_, fun hv => ?_,
      Framer.phase_of_zero hn⟩
    · have he : verdict p = .delivered p := if_pos hv
      exact ⟨he ▸ hgives, by rw [he]; rfl⟩
    · have he : verdict p = .discarded .checksumMismatch := if_neg (by simp [hv])
      exact ⟨he ▸ hgives, by rw [he]; exact List.append_nil _⟩

/-- Settles O33: `BUF[1]` is kept from the fourth byte on, and with it the class; and the count reaches 4
from 3 alone. -/
theorem frameClassIsFixedAtTheFourthByte : Obligations.FrameClassIsFixedAtTheFourthByte := by
  intro s t b ph ph' hI hx hs ht
  have hcount : t.count = s.count + 1 ∨ t.count = 0 := by
    obtain ⟨e, -, hup, hzero⟩ := countGoesUpByOneOrToZero s t b hx
    by_cases he : e = .pending
    · exact .inl (hup he)
    · exact .inr (hzero he)
  have hsame : ph ≠ .header → ph' ≠ .header → ph = ph' := by
    intro hne hne'
    have h4 := Framer.four_le_of_phase hs hne
    obtain ⟨len, hl, -⟩ := hI.tracked h4
    have hl' := (exec_rxByte_cell_one hx h4).trans hl
    have hphase := Framer.phase_of_len hI.one_lt_cap h4 hl
    have hphase' := Framer.phase_of_len hI.one_lt_cap (Framer.four_le_of_phase ht hne') hl'
    rw [exec_params hx] at ht
    exact Except.ok.inj ((hs.symm.trans hphase).trans (hphase'.symm.trans ht))
  refine ⟨?_, ?_, fun hh hne' => ?_⟩
  · rintro rfl rfl
    cases hsame (by decide) (by decide)
  · rintro rfl rfl
    cases hsame (by decide) (by decide)
  · subst hh
    have hlt : s.count < 4 := by
      rcases Framer.phase_ok.mp hs with ⟨hlt, -⟩ | ⟨-, e, -, he⟩
      · exact hlt
      · split at he <;> cases he
    have h4 : 4 ≤ t.count := Framer.four_le_of_phase ht hne'
    omega

/-! ### Outside the states of R23 -/

theorem exec_rxByte_of_ready_error {s : State} {b : Byte} {x : Fault}
    (h : Framer.ready s.params.cap s.framer = .error x) : exec (.rxByte b) s = .fault x := by
  simp only [exec, execRxByte, rxStep, Framer.accept, h]

/-- Settles O34: the framer has no step where it cannot tell its phase or its end is not ahead, and no cell to
store at where the cursor is past `CAP`. -/
theorem unsoundStatesFaultByName : Obligations.UnsoundStatesFaultByName := by
  refine ⟨fun s b len hcap h4 hl hpast => ?_, fun s b hcap h4 hl => ?_, fun s b h4 hpast => ?_⟩
  · have hph := Framer.phase_of_len hcap h4 hl
    have hrem : Framer.remaining s.params.cap s.framer = .error .cursorPastFrame := by
      simp only [Framer.remaining, Framer.expected_of_read hcap hl]
      exact if_neg (Nat.not_lt_of_le hpast)
    apply exec_rxByte_of_ready_error
    by_cases hc : len.toNat + 3 > s.params.cap
    · rw [if_pos hc] at hph
      simp only [Framer.ready, hph, hrem]
    · rw [if_neg hc] at hph
      simp only [Framer.ready, hph, hrem]
  · have hexp : Framer.expected s.params.cap s.framer = .error (.noSuchCell 1) := by
      have hl' : Memory.read s.framer.buf 1 = none := hl
      simp only [Framer.expected, Memory.load, if_pos hcap, hl']
    have hph : Framer.phase s.params.cap s.framer = .error (.noSuchCell 1) := by
      have h4' : ¬ s.framer.filled.toNat < 4 := Nat.not_lt_of_le h4
      simp only [Framer.phase, Config.hdr, if_neg h4', hexp]
    apply exec_rxByte_of_ready_error
    simp only [Framer.ready, hph]
  · have hready : Framer.ready s.params.cap s.framer = .ok .header :=
      Framer.ready_ok.mpr ⟨Framer.phase_header h4, fun h => absurd h4 (Nat.not_lt_of_le h)⟩
    have hstore : Memory.store s.params.cap s.framer.buf (s.framer.writeIndex .header) b =
        .error (.noSuchCell s.count) := if_neg (Nat.not_lt_of_le hpast)
    simp only [exec, execRxByte, rxStep, Framer.accept, hready, hstore]

end Sys2Proof.Machine
end

section
/-! A whole frame, byte by byte from `FILLED = 0` (spec R82, R85 to R92): how many bytes of the stream it takes,
its outcome, and what it leaves in `BUF`. -/

namespace Sys2Proof.Machine

/-! ### The length and the outcome of a frame -/

/-- How many bytes of the stream a frame takes (R92): a runt ends at its fourth byte. -/
def frameLength (len : Byte) : Nat := if len.toNat = 0 then 4 else len.toNat + 3

/-- The outcome of the whole frame `q` that declares `len` (R85, R87, R88). -/
def frameOutcome (cap : Nat) (len : Byte) (q : List Byte) : Event :=
  if len.toNat = 0 then .discarded .runtPacket
  else if cap < len.toNat + 3 then .discarded .oversizedPacket
  else verdict q

/-- The bytes of one frame that declares `len`. -/
structure IsFrame (len : Byte) (q : List Byte) : Prop where
  declared : q[1]? = some len
  length : q.length = frameLength len

theorem frameLength_runt {len : Byte} (h : len.toNat = 0) : frameLength len = 4 := if_pos h

theorem frameLength_of_pos {len : Byte} (h : 0 < len.toNat) : frameLength len = len.toNat + 3 :=
  if_neg (by omega)

theorem four_le_frameLength (len : Byte) : 4 ≤ frameLength len := by
  unfold frameLength
  split <;> omega

theorem verdict_ne_pending (q : List Byte) : verdict q ≠ .pending := by
  unfold verdict
  split <;> simp

theorem frameOutcome_ne_pending (cap : Nat) (len : Byte) (q : List Byte) :
    frameOutcome cap len q ≠ .pending := by
  unfold frameOutcome
  split
  · simp
  · split
    · simp
    · exact verdict_ne_pending q

theorem frameOutcome_runt {cap : Nat} {len : Byte} {q : List Byte} (h : len.toNat = 0) :
    frameOutcome cap len q = .discarded .runtPacket := if_pos h

theorem frameOutcome_oversized {cap : Nat} {len : Byte} {q : List Byte} (h0 : 0 < len.toNat)
    (h : cap < len.toNat + 3) : frameOutcome cap len q = .discarded .oversizedPacket := by
  rw [frameOutcome, if_neg (by omega), if_pos h]

theorem frameOutcome_fits {cap : Nat} {len : Byte} {q : List Byte} (h0 : 0 < len.toNat)
    (h : len.toNat + 3 ≤ cap) : frameOutcome cap len q = verdict q := by
  rw [frameOutcome, if_neg (by omega), if_neg (by omega)]

/-! ### One byte of a frame -/

/-- The cell the next byte of a frame that declares `len` is stored at (R81). -/
def State.storeIndex (s : State) (len : Byte) : Nat :=
  if s.params.cap < len.toNat + 3 then min s.count 4 else s.count

/-- A byte of a frame is stored, and is Pending unless it is the last, which yields the frame's outcome. -/
theorem AcceptCase.of_frame {s : State} {g : Framer} {b len : Byte} {e : Event}
    (h : AcceptCase s.params.cap s.framer b g e) (hcap : 5 ≤ s.params.cap)
    (hlt : s.count < frameLength len) (hl : 3 ≤ s.count → s.cell 1 = some len) :
    g.buf = Memory.write s.framer.buf (s.storeIndex len) b ∧
      ((s.count + 1 < frameLength len ∧ g.filled.toNat = s.count + 1 ∧ e = .pending) ∨
       (s.count + 1 = frameLength len ∧ g.filled.toNat = 0 ∧
        ∀ q, q.length = frameLength len →
          (len.toNat + 3 ≤ s.params.cap → ∀ k, k < q.length → q[k]? = Memory.read g.buf k) →
          e = frameOutcome s.params.cap len q)) := by
  have hindex : s.count ≤ 4 ∨ len.toNat + 3 ≤ s.params.cap → s.storeIndex len = s.count := by
    intro h
    unfold State.storeIndex
    split <;> omega
  by_cases h3 : s.count < 3
  · have := four_le_frameLength len
    obtain ⟨hb, hn, he⟩ := h.of_lt_three h3
    exact ⟨by rw [hindex (by omega), hb], .inl ⟨by omega, hn, he⟩⟩
  have h3 : 3 ≤ s.count := Nat.le_of_not_lt h3
  by_cases h0 : len.toNat = 0
  · rw [frameLength_runt h0] at hlt ⊢
    have hthree : s.count = 3 := by omega
    obtain ⟨hb, hn, he⟩ := h.of_runt hcap hthree (hl h3) h0
    exact ⟨by rw [hindex (by omega), hb, hthree], .inr ⟨by omega, hn, fun q _ _ => by
      rw [he, frameOutcome_runt h0]⟩⟩
  have h0 : 0 < len.toNat := Nat.pos_of_ne_zero h0
  rw [frameLength_of_pos h0] at hlt ⊢
  by_cases hc : s.params.cap < len.toNat + 3
  · obtain ⟨hb, hrest⟩ := h.of_oversized hcap h3 (hl h3) hc
    rw [State.storeIndex, if_pos hc]
    exact ⟨hb, hrest.imp_right fun ⟨hend, hn, he⟩ => ⟨hend, hn, fun q _ _ => by
      rw [he, frameOutcome_oversized h0 hc]⟩⟩
  · have hc : len.toNat + 3 ≤ s.params.cap := Nat.le_of_not_lt hc
    obtain ⟨hb, hrest⟩ := h.of_fits h3 (hl h3) h0 hc
    rw [hindex (.inr hc)]
    refine ⟨hb, hrest.imp_right fun ⟨hend, hn, p, hp, hr, he⟩ =>
      ⟨hend, hn, fun q hq hcells => ?_⟩⟩
    have hpq : p = q := List.ext_getElem?' fun k hk => by
      rw [hr k (by omega), hcells hc k (by omega)]
    rw [he, frameOutcome_fits h0 hc, hpq]

/-! ### What a frame leaves in the buffer -/

/-- After `n` bytes of the frame `q` from the state `s₀`: the cells up to the cursor hold them, in an oversized
frame those of the header, and such a frame leaves the cells past index 4 alone. -/
structure Stores (s₀ : State) (len : Byte) (q : List Byte) (n : Nat) (s : State) : Prop where
  cells : ∀ k, k < n → (k < 4 ∨ len.toNat + 3 ≤ s₀.params.cap) → s.cell k = q[k]?
  beyond : s₀.params.cap < len.toNat + 3 → ∀ i, 4 < i → s.cell i = s₀.cell i

theorem Stores.byte {s₀ s t : State} {len b : Byte} {q : List Byte} (h : Stores s₀ len q s.count s)
    (hp : s.params = s₀.params) (hq : q[s.count]? = some b)
    (hb : t.framer.buf = Memory.write s.framer.buf (s.storeIndex len) b) :
    Stores s₀ len q (s.count + 1) t := by
  have hcell : ∀ i, t.cell i = if s.storeIndex len = i then some b else s.cell i := fun i => by
    rw [State.cell, hb, Memory.read_write]
  unfold State.storeIndex at hcell
  rw [hp] at hcell
  constructor
  · intro k hk hlive
    rw [hcell]
    by_cases hk' : k = s.count
    · rw [hk', hq, if_pos]
      split <;> omega
    · rw [if_neg, h.cells k (by omega) hlive]
      split <;> omega
  · intro hc i hi
    rw [hcell, if_neg, h.beyond hc i hi]
    rw [if_pos hc]
    omega

/-- The state `s` is the state `s₀` after `n` bytes of the frame `q`, every one of them Pending. -/
structure PartWay (s₀ : State) (len : Byte) (q : List Byte) (n : Nat) (s : State) : Prop where
  fed : feed (q.take n) s₀ = .ok (s, List.replicate n .pending)
  inv : s.Inv
  count : s.count = n
  stores : Stores s₀ len q n s

/-- The next byte of a frame, the last one or not. -/
theorem PartWay.byte {s₀ s : State} {len b : Byte} {q : List Byte} {n : Nat}
    (h : PartWay s₀ len q n s) (hq : IsFrame len q) (hb : q[n]? = some b) :
    ∃ t e, rxStep b s = .ok (t, e) ∧ t.Inv ∧ Stores s₀ len q (n + 1) t ∧
      ((n + 1 < q.length ∧ t.count = n + 1 ∧ e = .pending) ∨
       (n + 1 = q.length ∧ t.count = 0 ∧ e = frameOutcome s₀.params.cap len q)) := by
  obtain ⟨hfed, hI, rfl, hstores⟩ := h
  obtain ⟨hp, -⟩ := feed_frame hfed
  obtain ⟨hn, -⟩ := List.getElem?_eq_some_iff.mp hb
  obtain ⟨g, e, ha, hcase⟩ := Framer.accept_cases hI.instanceOk.1 hI.framerOk b
  have hl : 3 ≤ s.count → s.cell 1 = some len := fun h3 => by
    rw [hstores.cells 1 (by omega) (.inl (by decide)), hq.declared]
  obtain ⟨hbuf, hrest⟩ := hcase.of_frame hI.five_le_cap (hq.length ▸ hn) hl
  have hstores' := hstores.byte (t := s.emit g (Framer.stat s.params.cap g e)) hp hb hbuf
  refine ⟨_, e, rxStep_ok.mpr ⟨g, ha, rfl⟩, ⟨hI.instanceOk, hcase.inv hI.instanceOk.1 hI.framerOk⟩,
    hstores', ?_⟩
  rw [← hq.length, hp] at hrest
  refine hrest.imp_right fun ⟨hend, hzero, hout⟩ => ⟨hend, hzero, hout q rfl fun hc k hk => ?_⟩
  exact (hstores'.cells k (by omega) (.inr hc)).symm

theorem PartWay.feed_byte {s₀ s t : State} {len b : Byte} {q : List Byte} {n : Nat} {e : Event}
    (h : PartWay s₀ len q n s) (hb : q[n]? = some b) (hstep : rxStep b s = .ok (t, e)) :
    feed (q.take (n + 1)) s₀ = .ok (t, List.replicate n .pending ++ [e]) := by
  rw [List.take_add_one, hb]
  exact feed_append_ok.mpr ⟨s, _, _, h.fed, feed_cons_ok.mpr ⟨t, e, [], hstep, rfl, rfl⟩, rfl⟩

theorem partWay_of_lt {s : State} {len : Byte} {q : List Byte} (hI : s.Inv) (h0 : s.count = 0)
    (hq : IsFrame len q) {n : Nat} (hn : n < q.length) : ∃ t, PartWay s len q n t := by
  induction n with
  | zero => exact ⟨s, rfl, hI, h0, ⟨fun k hk => by omega, fun _ _ _ => rfl⟩⟩
  | succ n ih =>
    obtain ⟨t, ht⟩ := ih (by omega)
    have hb : q[n]? = some q[n] := List.getElem?_eq_getElem (by omega)
    obtain ⟨u, e, hstep, hu, hstores, ⟨-, hcount, rfl⟩ | ⟨hend, -⟩⟩ := ht.byte hq hb
    · exact ⟨u, List.replicate_succ' ▸ ht.feed_byte hb hstep, hu, hcount, hstores⟩
    · omega

/-- The outcomes a frame shows: Pending but for the last byte. -/
def frameEvents (cap : Nat) (len : Byte) (q : List Byte) : List Event :=
  List.replicate (q.length - 1) .pending ++ [frameOutcome cap len q]

theorem packets_frameEvents (cap : Nat) (len : Byte) (q : List Byte) :
    (frameEvents cap len q).flatMap Event.packets = (frameOutcome cap len q).packets := by
  simp [frameEvents, Event.packets]

/-- R92: a whole frame from `FILLED = 0`. -/
theorem feed_of_isFrame {s : State} {len : Byte} {q : List Byte} (hI : s.Inv) (h0 : s.count = 0)
    (hq : IsFrame len q) :
    ∃ t, feed q s = .ok (t, frameEvents s.params.cap len q) ∧
      t.Inv ∧ t.count = 0 ∧ Stores s len q q.length t := by
  obtain ⟨n, hn⟩ : ∃ n, q.length = n + 1 := by
    have := four_le_frameLength len
    exact ⟨q.length - 1, by rw [hq.length]; omega⟩
  obtain ⟨t, ht⟩ := partWay_of_lt hI h0 hq (n := n) (by omega)
  have hb : q[n]? = some q[n] := List.getElem?_eq_getElem (by omega)
  obtain ⟨u, e, hstep, hu, hstores, ⟨hlt, -⟩ | ⟨-, hcount, rfl⟩⟩ := ht.byte hq hb
  · omega
  · have hfeed := ht.feed_byte hb hstep
    rw [← hn, List.take_length] at hfeed
    exact ⟨u, by rw [hfeed, frameEvents, hn, Nat.add_sub_cancel], hu, hcount, hn ▸ hstores⟩

/-! ### A frame as a run of RX_BYTE -/

theorem execAll_rxByte_of_isFrame {s : State} {len : Byte} {q : List Byte} (hI : s.Inv)
    (h0 : s.count = 0) (hq : IsFrame len q) :
    ∃ t, execAll (q.map Instr.rxByte) s = .next t ∧ t.count = 0 ∧ Stores s len q q.length t ∧
      s.newEvents t = frameEvents s.params.cap len q ∧
      s.newResults t = (frameEvents s.params.cap len q).map Result.event ∧
      t.sink = s.sink ++ (frameOutcome s.params.cap len q).packets := by
  obtain ⟨t, hfeed, -, hcount, hcells, hbeyond⟩ := feed_of_isFrame hI h0 hq
  obtain ⟨-, -, -, hresults, -, hsink, -⟩ := feed_frame hfeed
  refine ⟨_, execAll_rxByte_of_feed hfeed, hcount, ⟨hcells, hbeyond⟩,
    (newEvents_of_feed hfeed : s.newEvents t = _), ?_, ?_⟩
  · rw [State.newResults, hresults, List.drop_left]
  · rw [← packets_frameEvents]
    exact hsink

/-- Settles O24: the rows of an oversized frame, and the whole of one. -/
theorem oversizedFrameIsDrainedToItsEnd : Obligations.OversizedFrameIsDrainedToItsEnd := by
  refine ⟨fun s b len hI h4 hl hc => ?_, fun s p len hI h0 hlen hp hc => ?_⟩
  · have hcap := hI.five_le_cap
    obtain ⟨g, e, hx, hcase⟩ := hI.exec_rxByte b
    obtain ⟨hb, hrest⟩ := hcase.of_oversized hcap (le_trans (by decide) h4) hl hc
    rw [Nat.min_eq_right h4] at hb
    refine ⟨fun hlt => ?_, fun hend => ?_⟩
    · obtain ⟨-, hn, rfl⟩ | ⟨hend, -⟩ := hrest
      · have hph := Framer.phase_of_write hI.one_lt_cap (by omega) hl hb (by decide)
        exact ⟨_, hx, State.rxGives_took hb hn, by rw [if_pos hc] at hph; exact hph,
          List.append_nil _⟩
      · omega
    · obtain ⟨hlt, -⟩ | ⟨-, hn, rfl⟩ := hrest
      · omega
      · exact ⟨_, hx, State.rxGives_took hb hn, Framer.phase_of_zero hn, List.append_nil _⟩
  · have hpos : 0 < len.toNat := by
      have := hI.five_le_cap
      omega
    have hq : IsFrame len p := ⟨hlen, by rw [frameLength_of_pos hpos, hp]⟩
    obtain ⟨t, hx, hcount, hstores, hevents, -, hsink⟩ := execAll_rxByte_of_isFrame hI h0 hq
    rw [frameOutcome_oversized hpos hc] at hsink
    refine ⟨t, hx, hcount, by rw [hsink]; exact List.append_nil _, fun k hk => ?_, ?_⟩
    · exact hstores.cells k (by omega) (.inl hk)
    · rw [hevents, frameEvents, frameOutcome_oversized hpos hc, hp]
      rfl

/-- Settles O25: the row of a runt, and the whole of one, a frame of four bytes. -/
theorem runtTakesFourBytes : Obligations.RuntTakesFourBytes := by
  refine ⟨fun s b hI h3 hl => ?_, fun s ty b₂ b₃ hI h0 => ?_⟩
  · obtain ⟨g, e, hx, hcase⟩ := hI.exec_rxByte b
    obtain ⟨hb, hn, rfl⟩ := hcase.of_runt hI.five_le_cap h3 hl rfl
    exact ⟨_, hx, State.rxGives_took hb hn, List.append_nil _, Framer.phase_of_zero hn⟩
  · have hq : IsFrame 0#8 [ty, 0#8, b₂, b₃] := ⟨rfl, rfl⟩
    obtain ⟨t, hx, hcount, -, hevents, hresults, hsink⟩ := execAll_rxByte_of_isFrame hI h0 hq
    exact ⟨t, hx, hcount, by rw [hsink]; exact List.append_nil _, hevents, hresults⟩

/-- Settles O32: the two lengths of the rule are those of a frame. -/
theorem everyByteBelongsToOneFrame : Obligations.EveryByteBelongsToOneFrame := by
  intro s bs len hI h0 hlen hbs
  obtain ⟨t, hx, hcount, -, hevents, -⟩ := execAll_rxByte_of_isFrame hI h0 ⟨hlen, hbs⟩
  exact ⟨t, _, hx, hcount, frameOutcome_ne_pending _ _ _, hevents⟩

end Sys2Proof.Machine
end

section
/-! POLL: one turn of its loop, the chunk a turn feeds, and what it reads in all (spec R93 to R97, R177). -/

namespace Sys2Proof.Machine

/-! ### One turn of the loop -/

section turn
variable {fuel avail req : Nat} {tr : Transport} {s s₁ u : State} {es outs : List Event}
  {calls : List ReadCall}

theorem pollLoop_avail_zero (fuel : Nat) (tr : Transport) (s : State) :
    pollLoop fuel 0 tr s = .ok (s, [], []) := by
  cases fuel <;> rfl

/-- A read that answers no byte ends the loop. -/
theorem pollLoop_of_empty_chunk (ha : avail ≠ 0)
    (hreq : Framer.request s.params.cap s.framer avail = .ok req)
    (hk : (Transport.chunk tr req).length = 0) :
    pollLoop (fuel + 1) avail tr s = .ok (s, [⟨req, 0⟩], []) := by
  simp only [pollLoop, if_neg ha, hreq, hk, if_true]

/-- A read that answers some bytes has them fed, and the loop goes on. -/
theorem pollLoop_of_chunk (ha : avail ≠ 0)
    (hreq : Framer.request s.params.cap s.framer avail = .ok req)
    (hk : (Transport.chunk tr req).length ≠ 0)
    (hf : feed (Transport.chunk tr req) s = .ok (s₁, es))
    (hl : pollLoop fuel (avail - (Transport.chunk tr req).length) (Transport.after tr req) s₁ =
      .ok (u, calls, outs)) :
    pollLoop (fuel + 1) avail tr s =
      .ok (u, ⟨req, (Transport.chunk tr req).length⟩ :: calls, nonPending es ++ outs) := by
  simp only [pollLoop, if_neg ha, hreq, if_neg hk, hf, hl, nonPending]

/-- Enough fuel is as good as more, and the loop reads `avail` from its own argument, not from the
transport. -/
theorem pollLoop_of_fuel {fuel' : Nat} {a : Option Nat}
    (h : pollLoop fuel avail tr s = .ok (u, calls, outs)) (hle : avail ≤ fuel) (hle' : avail ≤ fuel') :
    pollLoop fuel' avail { tr with avail := a } s = .ok (u, calls, outs) := by
  induction fuel generalizing fuel' avail tr s calls outs with
  | zero =>
    obtain rfl : avail = 0 := by omega
    exact (pollLoop_avail_zero _ _ s).trans h
  | succ fuel ih =>
    rcases pollLoop_succ_ok h with ⟨rfl, rfl, rfl, rfl⟩ | ⟨ha, req, hreq, hread⟩
    · exact pollLoop_avail_zero _ _ u
    · obtain ⟨n, rfl⟩ : ∃ n, fuel' = n + 1 := ⟨fuel' - 1, by omega⟩
      rcases hread with ⟨hk, rfl, rfl, rfl⟩ | ⟨hk, s₁, es, calls', outs', hf, hl, rfl, rfl⟩
      · exact pollLoop_of_empty_chunk ha hreq hk
      · exact pollLoop_of_chunk (tr := { tr with avail := a }) ha hreq hk hf
          (ih hl (by omega) (by omega))

end turn

/-- Settles O36: with nothing available the loop ends before a read, and with an empty chunk after one. -/
theorem pollWithNothingToReadEndsAtOnce : Obligations.PollWithNothingToReadEndsAtOnce := by
  refine fun s tr avail hI ha => ⟨fun h0 => ?_, fun hpos hempty => ?_⟩
  · subst h0
    exact (exec_poll_next ha).mpr ⟨s, [], [], rfl, rfl⟩
  · obtain ⟨n, rfl⟩ : ∃ n, avail = n + 1 := ⟨avail - 1, by omega⟩
    obtain ⟨req, hreq, hreqpos, -⟩ := Framer.request_total hI hpos
    have hk : (Transport.chunk tr req).length = 0 := by
      rw [Transport.chunk_length]
      rcases hempty with hs | hl
      · rw [hs, List.length_nil, Nat.min_zero]
      · rw [List.headD_eq_head?_getD, hl, Option.getD_some, Nat.min_zero, Nat.zero_min]
    exact ⟨req, hreqpos, (exec_poll_next ha).mpr
      ⟨s, _, _, pollLoop_of_empty_chunk (Nat.succ_ne_zero n) hreq hk, rfl⟩⟩

/-- The request of a POLL, from the three sizes of R95. -/
theorem State.Inv.request_of_phase {s : State} {avail req : Nat} {ph : Phase} (hI : s.Inv)
    (ha : 0 < avail) (hph : Framer.phase s.params.cap s.framer = .ok ph)
    (hheader : ph = .header → req = min avail (4 - s.count))
    (hpayload : ph = .payload → ∀ len, s.cell 1 = some len →
      req = min avail (len.toNat + 3 - s.count))
    (hoverflow : ph = .overflow → ∀ len, s.cell 1 = some len →
      req = min (min avail (len.toNat + 3 - s.count)) (s.params.cap - 4)) :
    Framer.request s.params.cap s.framer avail = .ok req ∧ 0 < req := by
  obtain ⟨r, hr, hpos, -, hlow, hhigh⟩ := Framer.request_total hI ha
  suffices h : req = r by rw [h]; exact ⟨hr, hpos⟩
  rcases Framer.phase_ok.mp hph with ⟨hlt, rfl⟩ | ⟨h4, e, he, hclass⟩
  · rw [hheader rfl, hlow hlt]
  · obtain ⟨-, len, hl, rfl⟩ := Framer.expected_ok.mp he
    rw [hhigh len h4 hl]
    by_cases hc : s.params.cap < len.toNat + 3
    · rw [if_pos hc] at hclass ⊢
      exact hoverflow hclass len hl
    · rw [if_neg hc] at hclass ⊢
      exact hpayload hclass len hl

/-- Settles O37: a turn of the loop feeds its chunk, and the turns left are those of a POLL of their own. -/
theorem pollReadsAChunkAndGoesOn : Obligations.PollReadsAChunkAndGoesOn := by
  intro s tr avail req ph hI ha hpos hph hheader hpayload hoverflow hk
  obtain ⟨hreq, hreqpos⟩ := hI.request_of_phase hpos hph hheader hpayload hoverflow
  obtain ⟨n, rfl⟩ : ∃ n, avail = n + 1 := ⟨avail - 1, by omega⟩
  obtain ⟨s₁, es, hf, hI₁⟩ := feed_total hI (Transport.chunk tr req)
  obtain ⟨u, calls, es', hl, hf', -⟩ := pollLoop_total (t := Transport.after tr req) hI₁
    (le_refl (n + 1 - (Transport.chunk tr req).length))
  obtain ⟨hp, hz, hq, hr, -⟩ := feed_frame (feed_append_ok.mpr ⟨s₁, es, es', hf, hf', rfl⟩)
  have hloop := pollLoop_of_chunk (Nat.succ_ne_zero n) hreq (Nat.ne_of_gt hk) hf
    (pollLoop_of_fuel hl (le_refl _) (fuel' := n) (by omega))
  exact ⟨hreqpos, Transport.chunk_length_le tr req, s₁, es, u.answer _, u.answer _, calls, nonPending es',
    hf, (exec_poll_next rfl).mpr ⟨u, calls, _, pollLoop_of_fuel hl (le_refl _) (le_refl _), rfl⟩,
    congrArg (· ++ [_]) hr, (exec_poll_next ha).mpr ⟨u, _, _, hloop, rfl⟩,
    rfl, rfl, rfl, hp, hz, hq, congrArg (· ++ [_]) hr⟩

/-- Settles O39: the bounds of the loop, read off its result. -/
theorem pollReadsWithinItsCount : Obligations.PollReadsWithinItsCount := by
  intro s tr avail hI ha
  obtain ⟨u, calls, es, hl, hf, hreads, hgot, hsum, hstop, -⟩ :=
    pollLoop_total (t := tr) hI (le_refl avail)
  obtain ⟨-, -, -, hr, -⟩ := feed_frame hf
  exact ⟨_, calls, nonPending es, (exec_poll_next ha).mpr ⟨u, calls, _, hl, rfl⟩,
    congrArg (· ++ [_]) hr, hreads, hgot, hsum, hstop⟩

/-- Settles O35: the aborted POLL shows its outcome and hands it back. -/
theorem transportErrorAbortsThePoll : Obligations.TransportErrorAbortsThePoll := by
  intro s tr ha
  refine ⟨s.abortPoll, exec_poll_aborted s ha, rfl, List.append_nil _, rfl, rfl, rfl, rfl, ?_⟩
  simp [State.newEvents, State.abortPoll]

/-! ### A chunk ends at most one frame -/

/-- The frame in progress takes `n` bytes more, or its header does. -/
structure State.Room (s : State) (n : Nat) : Prop where
  header : s.count < 4 → s.count + n ≤ 4
  frame : 4 ≤ s.count → ∀ len, s.cell 1 = some len → s.count + n ≤ len.toNat + 3

/-- A byte that leaves room for another does not end the frame. -/
theorem State.Room.byte {s t : State} {b : Byte} {e : Event} {n : Nat} (h : s.Room (n + 2))
    (hI : s.Inv) (hstep : rxStep b s = .ok (t, e)) : e = .pending ∧ t.Room (n + 1) := by
  obtain ⟨g, ha, rfl⟩ := rxStep_ok.mp hstep
  have hcase := Framer.accept_case ha
  by_cases h4 : s.count < 4
  · have hroom := h.header h4
    obtain ⟨-, hn, he⟩ := hcase.of_lt_three (by omega)
    have hcount : g.filled.toNat + (n + 1) ≤ 4 := by omega
    exact ⟨he, fun _ => hcount, fun (h4' : 4 ≤ g.filled.toNat) => by omega⟩
  · have h4 : 4 ≤ s.count := Nat.le_of_not_lt h4
    obtain ⟨len, hl, h2, -⟩ := hI.tracked h4
    have hroom := h.frame h4 len hl
    have hgoes : e = .pending ∧ g.filled.toNat = s.count + 1 := by
      by_cases hc : s.params.cap < len.toNat + 3
      · obtain ⟨-, ⟨-, hn, he⟩ | ⟨hend, -⟩⟩ := hcase.of_oversized hI.five_le_cap (by omega) hl hc
        · exact ⟨he, hn⟩
        · omega
      · obtain ⟨-, ⟨-, hn, he⟩ | ⟨hend, -⟩⟩ := hcase.of_fits (by omega) hl (by omega) (by omega)
        · exact ⟨he, hn⟩
        · omega
    obtain ⟨he, hn⟩ := hgoes
    have hone : Memory.read g.buf 1 = some len :=
      (exec_rxByte_cell_one (exec_rxByte_next.mpr ⟨_, e, hstep, rfl⟩) h4).trans hl
    refine ⟨he, fun (h4' : g.filled.toNat < 4) => by omega, fun _ len' hl' => ?_⟩
    cases hone.symm.trans hl'
    show g.filled.toNat + (n + 1) ≤ _
    omega

/-- Bytes for which there is room are Pending but for the last. -/
theorem State.Room.feed_pending {s t : State} {bs : List Byte} {es : List Event}
    (h : s.Room bs.length) (hI : s.Inv) (hf : feed bs s = .ok (t, es)) :
    ∀ e ∈ es.dropLast, e = .pending := by
  induction bs generalizing s es with
  | nil => cases hf; simp
  | cons b bs ih =>
    obtain ⟨s₁, e, es₁, hstep, hf₁, rfl⟩ := feed_cons_ok.mp hf
    cases bs with
    | nil => cases hf₁; simp
    | cons b' bs =>
      obtain ⟨he, hroom⟩ := h.byte hI hstep
      have hI₁ : s₁.Inv := by
        obtain ⟨s₂, e₂, hstep₂, hI₂⟩ := rxStep_total hI b
        cases hstep.symm.trans hstep₂
        exact hI₂
      obtain ⟨_, e', es₂, -, -, rfl⟩ := feed_cons_ok.mp hf₁
      rw [List.dropLast_cons_cons, List.forall_mem_cons]
      exact ⟨he, ih hroom hI₁ hf₁⟩

theorem Framer.request_avail_zero {s : State} {req : Nat}
    (h : Framer.request s.params.cap s.framer 0 = .ok req) : req = 0 := by
  unfold Framer.request at h
  split at h
  · cases h
  · cases h; exact Nat.zero_min _
  · split at h
    · cases h
    · cases h; exact Nat.zero_min _
  · split at h
    · cases h
    · cases h; rw [Nat.zero_min, Nat.zero_min]

/-- No request reaches beyond the end of the frame in progress, or of its header (R95). -/
theorem State.Inv.room_of_request {s : State} {avail req : Nat} (hI : s.Inv)
    (h : Framer.request s.params.cap s.framer avail = .ok req) : s.Room req := by
  rcases Nat.eq_zero_or_pos avail with rfl | hpos
  · obtain rfl := Framer.request_avail_zero h
    refine ⟨fun h4 => by omega, fun h4 len hl => ?_⟩
    obtain ⟨-, hlt⟩ := hI.tracked_len h4 hl
    omega
  · obtain ⟨r, hr, -, -, hlow, hhigh⟩ := Framer.request_total hI hpos
    cases h.symm.trans hr
    refine ⟨fun h4 => by have := hlow h4; omega, fun h4 len hl => ?_⟩
    have := hhigh len h4 hl
    obtain ⟨-, hlt⟩ := hI.tracked_len h4 hl
    split at this <;> omega

/-- Settles O38: there is room for as many bytes as a request asks for. -/
theorem chunkEndsAtMostOneFrame : Obligations.ChunkEndsAtMostOneFrame := by
  intro s t avail req bs es hI hreq hlen hf
  obtain ⟨hheader, hframe⟩ := hI.room_of_request hreq
  have hroom : s.Room bs.length :=
    ⟨fun h4 => by have := hheader h4; omega, fun h4 len hl => by have := hframe h4 len hl; omega⟩
  exact hroom.feed_pending hI hf

end Sys2Proof.Machine
end

section
/-! Chunking does not matter: a run of POLLs is the bytes the transports handed over, one by one (spec R96), and
so it is frame by frame what R92 says (spec R98, R99). -/

namespace Sys2Proof.Machine

/-! ### A run of POLLs -/

theorem nonPending_append (es es' : List Event) :
    nonPending (es ++ es') = nonPending es ++ nonPending es' := List.filter_append _ _

/-- The machine feeds what was handed over; beside that the POLLs leave one result each, and these list the
outcomes other than Pending. -/
theorem execAll_polls {ts : List Transport} {s : State} (hI : s.Inv)
    (hav : ∀ t ∈ ts, t.avail ≠ none) :
    ∃ v rs es, execAll (ts.map Instr.poll) s = .next { v with results := s.results ++ rs } ∧
      feed (handedOver ts rs) s = .ok (v, es) ∧ rs.length = ts.length ∧
      rs.flatMap Result.outs = nonPending es := by
  induction ts generalizing s with
  | nil => exact ⟨s, [], [], by simp [execAll], rfl, rfl, rfl⟩
  | cons tr ts ih =>
    obtain ⟨htr, hts⟩ := List.forall_mem_cons.mp hav
    obtain ⟨avail, ha⟩ := Option.ne_none_iff_exists'.mp htr
    obtain ⟨u, calls, es, hl, hf, -⟩ := pollLoop_total (t := tr) hI (le_refl avail)
    obtain ⟨-, -, -, hresults, -⟩ := feed_frame hf
    have hx := (exec_poll_next ha).mpr ⟨u, calls, _, hl, rfl⟩
    obtain ⟨hinst, hframer⟩ := exec_inv hI hx
    obtain ⟨w, rs, es', hxs, hfs, hlen, houts⟩ := ih ⟨hinst, hframer⟩ hts
    obtain ⟨v, es'', hfv, -⟩ := feed_total (s := u) ⟨hinst, hframer⟩ (handedOver ts rs)
    cases hfs.symm.trans (feed_answer hfv _)
    refine ⟨v, .poll calls (nonPending es) :: rs, es ++ es', ?_,
      feed_append_ok.mpr ⟨u, es, es', hf, hfv, rfl⟩, by simp [hlen], ?_⟩
    · rw [List.map_cons, execAll_cons_of_next hx, hxs, State.answer_results, hresults,
        List.append_assoc]
      rfl
    · rw [List.flatMap_cons, houts, nonPending_append]
      rfl

/-- The same of a run of POLLs that is given by the state it ends in. -/
theorem feed_of_execAll_polls {ts : List Transport} {s u : State} (hI : s.Inv)
    (hav : ∀ t ∈ ts, t.avail ≠ none) (h : execAll (ts.map Instr.poll) s = .next u) :
    ∃ v es, feed (handedOver ts (s.newResults u)) s = .ok (v, es) ∧
      u.framer = v.framer ∧ u.stat = v.stat ∧ u.sink = v.sink ∧
      (s.newResults u).length = ts.length ∧
      (s.newResults u).flatMap Result.outs = nonPending es := by
  obtain ⟨v, rs, es, hx, hf, hlen, houts⟩ := execAll_polls hI hav
  cases h.symm.trans hx
  have hrs : s.newResults { v with results := s.results ++ rs } = rs := List.drop_left
  rw [hrs]
  exact ⟨v, es, hf, rfl, rfl, rfl, hlen, houts⟩

/-- Settles O40: the POLLs and the run of RX_BYTE both feed what was handed over. -/
theorem pollsEqualByteWiseReception : Obligations.PollsEqualByteWiseReception := by
  intro ts s hI hav
  obtain ⟨_, _, _, hx, -⟩ := execAll_polls hI hav
  obtain ⟨v, es, hf, hframer, hstat, hsink, hlen, houts⟩ := feed_of_execAll_polls hI hav hx
  have hevents : s.newEvents { v with results := v.results ++ es.map Result.event } = es :=
    (newEvents_of_feed hf : s.newEvents v = es)
  exact ⟨_, _, hx, execAll_rxByte_of_feed hf, hlen, hframer, hstat, hsink, by rw [hevents, houts]⟩

/-! ### Frames in whatever chunks -/

theorem nonPending_singleton {e : Event} (h : e ≠ .pending) : nonPending [e] = [e] := by
  cases e with
  | pending => exact absurd rfl h
  | delivered | discarded | aborted => rfl

/-- A frame lists one outcome. -/
theorem nonPending_frameEvents (cap : Nat) (len : Byte) (q : List Byte) :
    nonPending (frameEvents cap len q) = [frameOutcome cap len q] := by
  have hpending : nonPending (List.replicate (q.length - 1) .pending) = [] :=
    List.filter_eq_nil_iff.mpr fun e he => by rw [List.eq_of_mem_replicate he]; decide
  rw [frameEvents, nonPending_append, hpending,
    nonPending_singleton (frameOutcome_ne_pending cap len q), List.nil_append]

/-- A Pending outcome delivers nothing. -/
theorem packets_nonPending (es : List Event) :
    (nonPending es).flatMap Event.packets = es.flatMap Event.packets := by
  induction es with
  | nil => rfl
  | cons e es ih =>
    rw [← List.singleton_append, nonPending_append, List.flatMap_append, ih, List.flatMap_append]
    by_cases he : e = .pending
    · rw [he]; rfl
    · rw [nonPending_singleton he]

theorem packets_verdicts (ps : List (List Byte)) :
    (ps.map verdict).flatMap Event.packets = ps.filter verify := by
  induction ps with
  | nil => rfl
  | cons p ps ih =>
    rw [List.map_cons, List.flatMap_cons, ih, List.filter_cons, verdict]
    split <;> rfl

/-- R98 (a), (d): the outcomes of packets that fit, one after the other from `FILLED = 0`. -/
theorem feed_flatten {ps : List (List Byte)} {s t : State} {es : List Event} (hI : s.Inv)
    (h0 : s.count = 0)
    (hps : ∀ p ∈ ps, ∃ len, p[1]? = some len ∧ p.length = len.toNat + 3 ∧ 1 ≤ len.toNat ∧
      p.length ≤ s.params.cap)
    (hf : feed ps.flatten s = .ok (t, es)) : nonPending es = ps.map verdict ∧ t.count = 0 := by
  induction ps generalizing s es with
  | nil => cases hf; exact ⟨rfl, h0⟩
  | cons p ps ih =>
    obtain ⟨⟨len, hlen, hp, hpos, hfits⟩, hps⟩ := List.forall_mem_cons.mp hps
    obtain ⟨s₁, es₁, es₂, hf₁, hf₂, rfl⟩ := feed_append_ok.mp hf
    obtain ⟨s₁', hframe, hI₁, hcount, -⟩ :=
      feed_of_isFrame hI h0 ⟨hlen, by rw [frameLength_of_pos hpos, hp]⟩
    cases hf₁.symm.trans hframe
    obtain ⟨hparams, -⟩ := feed_frame hf₁
    obtain ⟨houts, hend⟩ := ih hI₁ hcount (by rwa [hparams]) hf₂
    refine ⟨?_, hend⟩
    rw [nonPending_append, nonPending_frameEvents, frameOutcome_fits hpos (hp ▸ hfits), houts]
    rfl

/-- Settles O41: the POLLs feed the packets one after the other, and what the sink gets follows from the
outcomes. -/
theorem packetsSurviveEveryFragmentation : Obligations.PacketsSurviveEveryFragmentation := by
  refine ⟨fun ts ps s u hI h0 hav hps hx hbytes => ?_, fun s t b => exec_rxByte_count_zero⟩
  obtain ⟨v, es, hf, hframer, -, hsink, -, houts⟩ := feed_of_execAll_polls hI hav hx
  rw [hbytes] at hf
  obtain ⟨hverdicts, hcount⟩ := feed_flatten hI h0 hps hf
  obtain ⟨-, -, -, -, -, hsink', -⟩ := feed_frame hf
  refine ⟨houts.trans hverdicts, ?_, by rw [State.count, hframer]; exact hcount⟩
  rw [hsink, hsink', ← packets_nonPending, hverdicts, packets_verdicts]

/-- One frame in whatever chunks (R98, R99). -/
theorem polls_of_isFrame {ts : List Transport} {q : List Byte} {len : Byte} {s u : State} (hI : s.Inv)
    (h0 : s.count = 0) (hav : ∀ t ∈ ts, t.avail ≠ none) (hq : IsFrame len q)
    (hx : execAll (ts.map Instr.poll) s = .next u) (hbytes : handedOver ts (s.newResults u) = q) :
    u.sink = s.sink ++ (frameOutcome s.params.cap len q).packets ∧ u.count = 0 ∧
      (s.newResults u).flatMap Result.outs = [frameOutcome s.params.cap len q] ∧
      (s.params.cap < len.toNat + 3 → ∀ i, 4 < i → u.cell i = s.cell i) := by
  obtain ⟨v, es, hf, hframer, -, hsink, -, houts⟩ := feed_of_execAll_polls hI hav hx
  obtain ⟨v', hframe, -, hcount, hstores⟩ := feed_of_isFrame hI h0 hq
  rw [hbytes] at hf
  cases hf.symm.trans hframe
  obtain ⟨-, -, -, -, -, hsink', -⟩ := feed_frame hf
  refine ⟨by rw [hsink, hsink', packets_frameEvents], by rw [State.count, hframer]; exact hcount,
    by rw [houts, nonPending_frameEvents], fun hc i hi => ?_⟩
  rw [State.cell, hframer]
  exact hstores.beyond hc i hi

/-- Settles O42: the outcome of one frame in chunks; that of the longest, 258 bytes, turns between `CAP = 257` and
258. -/
theorem oversizedFrameNeverReachesTheSink : Obligations.OversizedFrameNeverReachesTheSink := by
  intro ts p len s u hI h0 hav hlen hp hx hbytes
  have hcap := hI.five_le_cap
  have hframe (hpos : 0 < len.toNat) := polls_of_isFrame hI h0 hav
    ⟨hlen, by rw [frameLength_of_pos hpos, hp]⟩ hx hbytes
  have hover (hc : s.params.cap < len.toNat + 3) : u.sink = s.sink ∧ u.count = 0 ∧
      (s.newResults u).flatMap Result.outs = [.discarded .oversizedPacket] ∧
      ∀ i, 4 < i → u.cell i = s.cell i := by
    have hpos : 0 < len.toNat := by omega
    obtain ⟨hsink, hcount, houts, hbeyond⟩ := hframe hpos
    rw [frameOutcome_oversized hpos hc] at hsink houts
    exact ⟨hsink.trans (List.append_nil _), hcount, houts, hbeyond hc⟩
  refine ⟨hover, fun h255 h258 hv => ?_, fun h255 h257 => ?_⟩
  · have hpos : 0 < len.toNat := by omega
    obtain ⟨hsink, hcount, -⟩ := hframe hpos
    rw [frameOutcome_fits hpos (by omega), verdict, if_pos hv] at hsink
    exact ⟨hsink, hcount⟩
  · obtain ⟨hsink, -, houts, -⟩ := hover (by omega)
    exact ⟨hsink, houts⟩

end Sys2Proof.Machine
end

section
/-! The checksum codec: the sum and its complement (spec R120, R124, R125), what VERIFY compares (R121, R126,
R128), and that the encoder's packets verify (R127). -/

namespace Sys2Proof.Machine

/-! ### The sum of the bytes -/

/-- The running sum is the library's sum of a list, in the ring of bytes (R124). -/
theorem sumBytes_eq_sum (bs : List Byte) : sumBytes 0#8 bs = bs.sum := by
  induction bs with
  | nil => rfl
  | cons b bs ih => rw [sumBytes_cons, ih, List.sum_cons]

theorem sumBytes_perm {bs cs : List Byte} (h : bs.Perm cs) : sumBytes 0#8 bs = sumBytes 0#8 cs := by
  rw [sumBytes_eq_sum, sumBytes_eq_sum, h.sum_eq]

/-- The sum up to and with one byte more. -/
theorem sumBytes_take_succ {p : List Byte} {n : Nat} {b : Byte} (h : p[n]? = some b) :
    sumBytes 0#8 (p.take (n + 1)) = sumBytes 0#8 (p.take n) + b := by
  rw [List.take_add_one, h, sumBytes_append, Option.toList_some, sumBytes_cons, sumBytes_nil, BitVec.add_zero]

/-- Putting `v` in place of a byte `b` moves the sum by `v - b`. -/
theorem sumBytes_set {p : List Byte} {i : Nat} {b : Byte} (v : Byte) (h : p[i]? = some b) :
    sumBytes 0#8 (p.set i v) = sumBytes 0#8 p + (-b + v) := by
  obtain ⟨hi, hb⟩ := List.getElem?_eq_some_iff.mp h
  rw [sumBytes_eq_sum, sumBytes_eq_sum, List.sum_set', dif_pos hi, hb]

/-- The sum is 0 as a byte exactly when the sum of the numbers is 0 mod 256. -/
theorem sumBytes_eq_zero_iff {bs : List Byte} :
    sumBytes 0#8 bs = 0#8 ↔ (bs.map BitVec.toNat).sum % 256 = 0 := by
  rw [← BitVec.toNat_inj, sumBytes_toNat, BitVec.toNat_ofNat]

/-! ### CHECKSUM -/

theorem exec_checksum {bs : List Byte} {count : Nat} (s : State) (h : count ≤ bs.length) :
    exec (.checksum bs count) s = .next (s.answer (.byte (checksum bs count))) :=
  exec_checksum_next.mpr ⟨h, rfl⟩

theorem checksum_length (bs : List Byte) : checksum bs bs.length = -sumBytes 0#8 bs := by
  rw [checksum_eq_neg, List.take_length]

theorem checksum_zero (bs : List Byte) : checksum bs 0 = 0#8 := by
  rw [checksum_eq_neg, List.take_zero, sumBytes_nil, BitVec.neg_zero]

/-- The two bytes that are their own negation (R125). -/
theorem neg_eq_self_iff {t : Byte} : -t = t ↔ t = 0#8 ∨ t = 0x80#8 := by
  simp only [← BitVec.toNat_inj, BitVec.toNat_neg, BitVec.toNat_ofNat]
  omega

/-- Settles O45: the byte's arithmetic is that of numbers mod 256. -/
theorem checksumIsTheComplementOfTheSum : Obligations.ChecksumIsTheComplementOfTheSum := by
  intro s bytes count h
  refine ⟨checksum bytes count, exec_checksum s h, ?_, ?_⟩
  · rw [checksum, BitVec.toNat_add, BitVec.toNat_xor, sumBytes_toNat]
    rfl
  · rintro rfl
    exact checksum_zero bytes

/-- Settles O46: addition of bytes commutes, and the running sum is the integer sum reduced. -/
theorem checksumIgnoresTheOrderOfBytes : Obligations.ChecksumIgnoresTheOrderOfBytes := by
  refine ⟨fun bs cs hperm s => ?_, fun bs t => ?_⟩
  · rw [exec_checksum s (le_refl _), exec_checksum s (le_refl _), checksum_length, checksum_length,
      sumBytes_perm hperm]
  · rw [sumBytes_start, BitVec.toNat_add, sumBytes_toNat, Nat.add_mod_mod]

/-- Settles O47: the complement plus one is the negation, and a byte equals its negation only at 0 and 0x80. -/
theorem checksumIsTheNegatedSum : Obligations.ChecksumIsTheNegatedSum := by
  refine ⟨fun t => ?_, fun bytes count _ => ?_, fun bytes => ?_⟩
  · rw [complement_eq_neg, BitVec.toNat_neg]
  · rw [checksum_eq_neg, BitVec.toNat_neg, sumBytes_toNat]
  · rw [checksum_length, neg_eq_self_iff]

/-! ### VERIFY -/

/-- What VERIFY checks once the length byte is known. -/
theorem verify_iff_of_len {p : List Byte} {len : Byte} (hlen : p[1]? = some len) :
    verify p = true ↔ len.toNat + 3 ≤ p.length ∧
      p[len.toNat + 2]? = some (checksum p (len.toNat + 2)) := by
  rw [verify_eq_true, hlen]
  simp only [Option.some_inj, exists_eq_left']

/-- The byte compared is the negated sum of those before it exactly when the sum up to it is 0 (R126). -/
theorem verify_iff_sumBytes_eq_zero {p : List Byte} {len : Byte} (hlen : p[1]? = some len)
    (hp : len.toNat + 3 ≤ p.length) :
    verify p = true ↔ sumBytes 0#8 (p.take (len.toNat + 3)) = 0#8 := by
  have hc : p[len.toNat + 2]? = some p[len.toNat + 2] := List.getElem?_eq_getElem _
  rw [verify_iff_of_len hlen, and_iff_right hp, sumBytes_take_succ hc, hc, checksum_eq_neg, Option.some_inj]
  exact add_eq_zero_iff_eq_neg'.symm

/-- Bytes beyond the declared end are ignored (R121). -/
theorem verify_take {p : List Byte} {len : Byte} (hlen : p[1]? = some len)
    (hp : len.toNat + 3 ≤ p.length) : verify (p.take (len.toNat + 3)) = verify p := by
  have hlen' : (p.take (len.toNat + 3))[1]? = some len := by
    rw [List.getElem?_take_of_lt (by omega), hlen]
  have hp' : len.toNat + 3 ≤ (p.take (len.toNat + 3)).length := by
    rw [List.length_take_of_le hp]
  rw [Bool.eq_iff_iff, verify_iff_sumBytes_eq_zero hlen' hp', verify_iff_sumBytes_eq_zero hlen hp,
    List.take_take, min_self]

/-- Settles O48: VERIFY hands its answer back, which the bytes up to the checksum's decide. -/
theorem verifyComparesTheChecksumByte : Obligations.VerifyComparesTheChecksumByte :=
  fun _ p => ⟨verify p, exec_verify_next.mpr rfl, verify_eq_true, fun _ hlen hp => (verify_take hlen hp).symm⟩

/-- Settles O49: the sum as a byte is 0 when the integer sum is 0 mod 256. -/
theorem verifyHoldsIffTheBytesSumToZero : Obligations.VerifyHoldsIffTheBytesSumToZero :=
  fun _ _ hlen hp => (verify_iff_sumBytes_eq_zero hlen hp).trans sumBytes_eq_zero_iff

/-- Settles O50: were both sums 0, the byte put in would be the one taken out. -/
theorem singleByteChangeIsAlwaysDetected : Obligations.SingleByteChangeIsAlwaysDetected := by
  intro p len v i hv hlen hi1 hi hne
  obtain ⟨hp, -⟩ := (verify_iff_of_len hlen).mp hv
  have hlen' : (p.set i v)[1]? = some len := by rw [List.getElem?_set_ne hi1, hlen]
  have hp' : len.toNat + 3 ≤ (p.set i v).length := by rw [List.length_set]; exact hp
  have hb : p[i]? = some p[i] := List.getElem?_eq_getElem (by omega)
  have hb' : (p.take (len.toNat + 3))[i]? = some p[i] := by
    rw [List.getElem?_take_of_lt (by omega), hb]
  have hsum := (verify_iff_sumBytes_eq_zero hlen hp).mp hv
  refine Bool.eq_false_iff.mpr fun hv' => hne ?_
  have hsum' := (verify_iff_sumBytes_eq_zero hlen' hp').mp hv'
  rw [List.take_set, sumBytes_set v hb', hsum, BitVec.zero_add] at hsum'
  rw [hb, neg_add_eq_zero.mp hsum']

/-! ### What the encoder makes -/

/-- The packet of SERIALIZE closes a sum of 0. -/
theorem sumBytes_serialize (ty : Byte) (payload : List Byte) :
    sumBytes 0#8 (serialize ty payload) = 0#8 := by
  rw [serialize_eq, encodePkt, sumBytes_cons, sumBytes_cons, sumBytes_append, sumBytes_cons, sumBytes_nil,
    BitVec.add_zero, ← BitVec.add_assoc, ← BitVec.add_assoc, ← BitVec.add_assoc]
  exact add_neg_cancel _

theorem serialize_length (ty : Byte) (payload : List Byte) :
    (serialize ty payload).length = payload.length + 3 := by simp [serialize]

/-- What SERIALIZE makes, VERIFY accepts. -/
theorem verify_serialize (ty : Byte) {payload : List Byte} (h : payload.length ≤ 255) :
    verify (serialize ty payload) = true := by
  have hlen : (serialize ty payload)[1]? = some (BitVec.ofNat 8 payload.length) := rfl
  have hlength : (serialize ty payload).length = (BitVec.ofNat 8 payload.length).toNat + 3 := by
    rw [serialize_length, BitVec.toNat_ofNat, Nat.mod_eq_of_lt (by omega)]
  rw [verify_iff_sumBytes_eq_zero hlen hlength.ge, List.take_of_length_le hlength.le, sumBytes_serialize]

/-- The payload of a sound state's request has the length a byte declares. -/
theorem verify_buildRequest {s : State} (hI : s.Inv) : verify (buildRequest s.params) = true :=
  verify_serialize _ (by
    rw [requestPayload_length hI.instanceOk.2]
    exact Nat.le_of_lt_succ s.params.reqLen.isLt)

/-- Settles O53: the encoder's packets verify, the request being one of them. -/
theorem serializedPacketVerifies : Obligations.SerializedPacketVerifies :=
  ⟨fun ty _ h => verify_serialize ty h, fun _ hI => verify_buildRequest hI, fun t => neg_neg t⟩

end Sys2Proof.Machine
end

section
/-! The packet encoder: the bytes of a packet and of the request (spec R130 to R132), what SERIALIZE and
BUILD_REQUEST hand back and refuse (R133, R137), and the loop back into the framer (R136). -/

namespace Sys2Proof.Machine

/-! ### The packet of SERIALIZE -/

/-- The length byte of a packet is its payload's length as long as a byte holds it. -/
theorem lengthByte_toNat {n : Nat} (h : n ≤ 255) : (BitVec.ofNat 8 n).toNat = n := by
  rw [BitVec.toNat_ofNat, Nat.mod_eq_of_lt (by omega)]

theorem serialize_zero (ty : Byte) (payload : List Byte) : (serialize ty payload)[0]? = some ty := rfl

theorem serialize_one (ty : Byte) (payload : List Byte) :
    (serialize ty payload)[1]? = some (BitVec.ofNat 8 payload.length) := rfl

/-- Payload byte `k` stands at offset `2 + k` (R130). -/
theorem serialize_payload {payload : List Byte} {k : Nat} (ty : Byte) (hk : k < payload.length) :
    (serialize ty payload)[2 + k]? = payload[k]? := by
  rw [serialize_eq, encodePkt, Nat.add_comm, List.getElem?_cons_succ, List.getElem?_cons_succ,
    List.getElem?_append_left hk]

/-- The last byte is the negated sum of those before it (R125, R130). -/
theorem serialize_checksum {payload : List Byte} (ty : Byte) (h : payload.length ≤ 255) :
    ∃ c, (serialize ty payload)[payload.length + 2]? = some c ∧
      c.toNat =
        (256 - (ty.toNat + payload.length + (payload.map BitVec.toNat).sum) % 256) % 256 := by
  refine ⟨-(ty + (BitVec.ofNat 8 payload.length + sumBytes 0#8 payload)), ?_, ?_⟩
  · rw [serialize_eq, encodePkt, List.getElem?_cons_succ, List.getElem?_cons_succ,
      List.getElem?_concat_length]
  · rw [BitVec.toNat_neg, BitVec.toNat_add, BitVec.toNat_add, lengthByte_toNat h, sumBytes_toNat]
    omega

/-- Settles O52: the packet byte by byte, handed back and nothing else. -/
theorem serializeLaysOutThePacket : Obligations.SerializeLaysOutThePacket :=
  fun _ ty payload h => ⟨serialize ty payload, exec_serialize_next.mpr ⟨h, rfl⟩,
    serialize_length ty payload, serialize_zero ty payload, serialize_one ty payload,
    fun _ => serialize_payload ty, serialize_checksum ty h⟩

/-! ### The request -/

theorem requestPayload_lead {p : Params} {k : Nat} (hk : k < p.reqLead.length) :
    (requestPayload p)[k]? = p.reqLead[k]? := List.getElem?_append_left hk

/-- Past the lead the payload of the request is zeros (R131). -/
theorem requestPayload_pad {p : Params} {k : Nat} (hk : p.reqLead.length ≤ k)
    (hlt : k < p.reqLen.toNat) : (requestPayload p)[k]? = some 0#8 := by
  rw [requestPayload, List.getElem?_append_right hk, List.getElem?_replicate_of_lt (by omega)]

/-- The zeros of the request add nothing to its sum. -/
theorem requestPayload_sum (p : Params) :
    ((requestPayload p).map BitVec.toNat).sum = (p.reqLead.map BitVec.toNat).sum := by
  simp [requestPayload]

theorem reqLen_le_maxPayload (p : Params) : p.reqLen.toNat ≤ 255 := Nat.le_of_lt_succ p.reqLen.isLt

/-- Settles O54: the request is the packet of its template, whose payload is the lead and then zeros. -/
theorem requestImageIsThatOfTheTemplate : Obligations.RequestImageIsThatOfTheTemplate := by
  intro s h
  have hlen := requestPayload_length h
  have hpayload {k : Nat} (hk : k < s.params.reqLen.toNat) :
      (buildRequest s.params)[2 + k]? = (requestPayload s.params)[k]? :=
    serialize_payload _ (hk.trans_eq hlen.symm)
  obtain ⟨c, hc, hsum⟩ :=
    serialize_checksum s.params.reqType (hlen.trans_le (reqLen_le_maxPayload s.params))
  rw [hlen, Nat.add_comm] at hc
  rw [hlen, requestPayload_sum] at hsum
  refine ⟨buildRequest s.params, exec_buildRequest_next.mpr ⟨h, rfl⟩, ?_, rfl, ?_, fun k hk => ?_,
    fun j hj hj' => ?_, c, hc, hsum⟩
  · rw [buildRequest, serialize_length, hlen]
  · rw [buildRequest, serialize_one, hlen, BitVec.ofNat_toNat, BitVec.setWidth_eq]
  · rw [hpayload (by omega), requestPayload_lead hk]
  · obtain ⟨k, rfl⟩ := Nat.exists_eq_add_of_le (Nat.le_of_add_right_le hj)
    rw [hpayload (by omega), requestPayload_pad (by omega) (by omega)]

theorem exec_buildRequest_refused {s : State} (h : ¬ s.params.reqLead.length ≤ s.params.reqLen.toNat) :
    exec .buildRequest s = .refused .notAnInstance := if_neg h

/-- Settles O55: BUILD_REQUEST checks the template first. -/
theorem badTemplateIsRefused : Obligations.BadTemplateIsRefused :=
  fun _ h => exec_buildRequest_refused (Nat.not_le_of_lt h)

/-! ### What the encoder reads and writes -/

/-- Settles O56: SERIALIZE reads its operands alone, BUILD_REQUEST the constants alone, and each
hands back one packet. -/
theorem encoderIsPure : Obligations.EncoderIsPure := by
  rintro i s t u (⟨ty, payload, rfl⟩ | rfl) hparams h
  · obtain ⟨hlen, rfl⟩ := exec_serialize_next.mp h
    exact ⟨_, rfl, exec_serialize_next.mpr ⟨hlen, rfl⟩⟩
  · obtain ⟨hlead, rfl⟩ := exec_buildRequest_next.mp h
    refine ⟨.bytes (buildRequest s.params), rfl, ?_⟩
    rw [hparams] at hlead ⊢
    exact exec_buildRequest_next.mpr ⟨hlead, rfl⟩

/-! ### From the encoder back into the framer -/

/-- A packet with a payload is one frame of its declared length. -/
theorem isFrame_serialize {payload : List Byte} (ty : Byte) (hpos : 1 ≤ payload.length)
    (h : payload.length ≤ 255) :
    IsFrame (BitVec.ofNat 8 payload.length) (serialize ty payload) := by
  refine ⟨serialize_one ty payload, ?_⟩
  rw [serialize_length, frameLength_of_pos (by rwa [lengthByte_toNat h]), lengthByte_toNat h]

/-- A packet with a payload that fits is delivered, for it verifies (R127). -/
theorem frameOutcome_serialize {cap : Nat} {payload : List Byte} (ty : Byte)
    (hpos : 1 ≤ payload.length) (h : payload.length ≤ 255) (hfits : payload.length + 3 ≤ cap) :
    frameOutcome cap (BitVec.ofNat 8 payload.length) (serialize ty payload) =
      .delivered (serialize ty payload) := by
  have hlen := lengthByte_toNat h
  rw [frameOutcome_fits (by rwa [hlen]) (by rwa [hlen]), verdict, if_pos (verify_serialize ty h)]

/-- An encoded packet with a payload that fits, in whatever chunks: one outcome, its delivery. -/
theorem polls_of_serialize {ts : List Transport} {s u : State} {payload : List Byte} (hI : s.Inv)
    (h0 : s.count = 0) (hav : ∀ t ∈ ts, t.avail ≠ none)
    (hx : execAll (ts.map Instr.poll) s = .next u) (ty : Byte) (h : payload.length ≤ 255)
    (hpos : 1 ≤ payload.length) (hfits : payload.length + 3 ≤ s.params.cap)
    (hbytes : handedOver ts (s.newResults u) = serialize ty payload) :
    (s.newResults u).flatMap Result.outs = [.delivered (serialize ty payload)] ∧
      u.sink = s.sink ++ [serialize ty payload] ∧ u.count = 0 := by
  obtain ⟨hsink, hcount, houts, -⟩ :=
    polls_of_isFrame hI h0 hav (isFrame_serialize ty hpos h) hx hbytes
  rw [frameOutcome_serialize ty hpos h hfits] at hsink houts
  exact ⟨houts, hsink, hcount⟩

/-- Settles O43: an encoded packet is one frame, and the request is the packet of a payload of `REQ_LEN`
bytes. -/
theorem encodedPacketLoopsBack : Obligations.EncodedPacketLoopsBack := by
  refine fun ts s u hI h0 hav hx =>
    ⟨fun ty _ => polls_of_serialize hI h0 hav hx ty, fun hpos hfits hbytes => ?_⟩
  have hlen := requestPayload_length hI.instanceOk.2
  obtain ⟨houts, -, hcount⟩ := polls_of_serialize hI h0 hav hx s.params.reqType
    (hlen.trans_le (reqLen_le_maxPayload s.params)) (by rwa [hlen]) (by rwa [hlen]) hbytes
  exact ⟨houts, hcount⟩

end Sys2Proof.Machine
end

section
/-! Runs of any length (spec R80, R177), and RESET in any state, sound or not (spec R160, decision D12). -/

namespace Sys2Proof.Machine

/-! ### Every run completes -/

/-- Settles O5, by induction on the run: each operation goes on, and leaves a sound state for the rest. -/
theorem everyRunCompletes : Obligations.EveryRunCompletes := by
  intro is s hI hw
  induction is generalizing s with
  | nil => exact ⟨s, rfl, hI⟩
  | cons i is ih =>
    obtain ⟨hi, his⟩ := List.forall_mem_cons.mp hw
    obtain ⟨t, hx, ht⟩ := everyOperationCompletes i s hI hi
    rw [execAll_cons_of_next hx]
    exact ih t ht his

/-! ### RESET -/

/-- The machine right after a RESET. -/
def State.afterReset (s : State) : State := s.initialise.answer .done

theorem exec_reset (s : State) : exec .reset s = .next s.afterReset := rfl

@[simp] theorem State.afterReset_count (s : State) : s.afterReset.count = 0 := rfl

theorem State.afterReset_cell (s : State) (i : Nat) :
    s.afterReset.cell i = if i < s.params.cap then some (Config.resetCell s.resets i) else none :=
  Framer.read_initial s.params.cap s.resets i

/-- With `FILLED = 0` on both sides no cell is live, so there is none to differ in (R21). -/
theorem Framer.agree_of_zero {cap : Nat} {f g : Framer} (hf : f.filled = 0#9) (hg : g.filled = 0#9) :
    Framer.Agree cap f g where
  filled := hf.trans hg.symm
  cells i hi := by
    have hlive := Framer.live_le_filled cap f
    rw [hf] at hlive
    exact absurd (hi.trans_le hlive) (Nat.not_lt_zero i)

/-- The first byte after RESET starts a frame, even where the instance's template is not one of R137. -/
theorem exec_rxByte_afterReset {s : State} (hcap : 5 ≤ s.params.cap) (b : Byte) :
    ∃ u, exec (.rxByte b) s.afterReset = .next u ∧ RxGives s.afterReset b 0 1 .pending u := by
  obtain ⟨g, e, ha, hcase⟩ :=
    Framer.accept_cases hcap (Framer.inv_initial s.params.cap s.resets) b
  obtain ⟨hb, hn, rfl⟩ := AcceptCase.of_lt_three (s := s.afterReset) hcase (by simp)
  exact ⟨_, exec_rxByte_accept.mpr ⟨g, .pending, ha, rfl⟩, State.rxGives_took hb hn⟩

/-- Settles O19: RESET lays out `BUF` afresh with `FILLED = 0` and hands back `done`; a second one finds no
live cell, and the next byte starts a frame. -/
theorem resetDropsTheFrameInProgress : Obligations.ResetDropsTheFrameInProgress := by
  intro s
  have hcount : s.afterReset.count < 4 := by simp
  have hcells : ∀ i, i < s.params.cap → ∃ v, s.afterReset.cell i = some v := fun i hi =>
    ⟨Config.resetCell s.resets i, by rw [State.afterReset_cell, if_pos hi]⟩
  have hnone : ∀ i, s.params.cap ≤ i → s.afterReset.cell i = none := fun i hi => by
    rw [State.afterReset_cell, if_neg (Nat.not_lt_of_le hi)]
  have hagain : Framer.Agree s.afterReset.params.cap s.afterReset.framer
      s.afterReset.afterReset.framer := Framer.agree_of_zero rfl rfl
  exact ⟨s.afterReset, exec_reset s, s.afterReset_count, Framer.phase_header hcount,
    Framer.ovf_of_lt hcount, rfl, rfl, rfl, rfl, rfl, hcells, hnone,
    ⟨s.afterReset.afterReset, exec_reset _, hagain, State.afterReset_count _, rfl, rfl, rfl, rfl⟩,
    exec_rxByte_afterReset⟩

end Sys2Proof.Machine
end

section
/-! The dispatch of one step whose invocation is no operation (spec R15, U10, U14). -/

namespace Sys2Proof.Machine

/-- A fetched invocation the decoder rejects stops the machine under the decoder's reason. -/
theorem step_of_fetch_of_decode_error {s s' : State} {r : Request} {x : DecodeError}
    (hf : s.fetch = some (r, s')) (hd : decode r = .error x) : step s = .refused (.badRequest x) := by
  simp only [step, hf, hd]

/-- Settles O8: the fetch takes the invocation, and the decoder rejects it. -/
theorem rejectedInvocationIsRefused : Obligations.RejectedInvocationIsRefused :=
  fun _ _ _ _ hp hd => step_of_fetch_of_decode_error (State.fetch_of_pending hp) hd

end Sys2Proof.Machine
end
